-- ==== Sys2Proof/Word.lean ====
section
/-! DEFINITION. The two word types of the core (00_scope.md R5, R13). -/

namespace Sys2Proof

/-- An unsigned 8-bit value: a register's contents or a byte of memory (R13). -/
abbrev Byte := BitVec 8

/-- An unsigned 16-bit value: an address or the program counter (R13). `+` on it is the
spec's `+16` (R15). -/
abbrev Word := BitVec 16

end Sys2Proof
end

