-- ==== Sys2Proof/Machine/Bits.lean ====
section
/-! DEFINITION. The slices and concatenation of 00_scope.md R14. -/

namespace Sys2Proof

/-- `lo(w) = w[7:0]` (R14). -/
def loByte (w : Word) : Byte := w.extractLsb' 0 8

/-- `hi(w) = w[15:8]` (R14). -/
def hiByte (w : Word) : Byte := w.extractLsb' 8 8

/-- `h ++ l`, the Word `h*256 + l` (R14): also how two little-endian bytes make a word (R43). -/
def wordOf (h l : Byte) : Word := h ++ l

/-- `zext_16(b)` (R14). -/
def zext16 (b : Byte) : Word := b.setWidth 16

end Sys2Proof
end

