-- ==== Sys2Proof/Syntax.lean ====
section
/-! DEFINITION. The instructions as syntax, and the shapes of their encodings
(30_encoding.md). -/

namespace Sys2Proof

/-- One constructor per row of spec/opcode_table.json. Operands are the fields of
30_encoding.md R61, 16-bit ones already assembled (R63). -/
inductive Instr where
  | ldaImm (imm8 : Byte)      -- LDA #imm     R121
  | ldaZp (zp8 : Byte)        -- LDA zp       R122
  | ldaZpX (zp8 : Byte)       -- LDA zp,X     R123
  | ldaAbs (addr : Word)      -- LDA abs      R124
  | ldaAbsX (base : Word)     -- LDA abs,X    R125
  | ldaAbsY (base : Word)     -- LDA abs,Y    R126
  | ldaIndX (zp8 : Byte)      -- LDA (zp,X)   R127
  | ldaIndY (zp8 : Byte)      -- LDA (zp),Y   R128
  | jsrAbs (target : Word)    -- JSR abs      R140
  | unknown (opcode : Byte)   -- UnknownOpcode, the 247 bytes of R66: R88
deriving DecidableEq, Repr

/-- The ten formats of R61. -/
inductive Format where
  | op | imm | zp | zpx | abs | absx | absy | indx | indy | jabs
deriving DecidableEq, Repr

/-- One entry of the opcode table (R64). -/
structure OpcodeEntry where
  opcode : Byte
  format : Format
  baseCost : Int
  penaltyPossible : Bool
deriving DecidableEq, Repr

/-- Why the decoder refuses a list of bytes: only for want of bytes, since every opcode
byte has a meaning (R67). -/
inductive DecodeError where
  /-- there is no opcode byte -/
  | noOpcode
  /-- the operand bytes of this opcode are cut off -/
  | missingOperand (opcode : Byte)
deriving DecidableEq, Repr

/-- The format each instruction is encoded in (R64). -/
def Instr.format : Instr → Format
  | .ldaImm _ => .imm
  | .ldaZp _ => .zp
  | .ldaZpX _ => .zpx
  | .ldaAbs _ => .abs
  | .ldaAbsX _ => .absx
  | .ldaAbsY _ => .absy
  | .ldaIndX _ => .indx
  | .ldaIndY _ => .indy
  | .jsrAbs _ => .jabs
  | .unknown _ => .op

end Sys2Proof
end

