-- ==== Sys2Proof/WellFormed.lean ====
section
/-! DEFINITION. Which instructions have an encoding. Operand fields are whole bytes (R61), so
the one check is that an undefined opcode is none of the nine defined ones (R66). -/

namespace Sys2Proof

/-- The nine bytes R66 excludes from the undefined ones, in its order. -/
def definedOpcodes : List Byte :=
  [0x20, 0xA1, 0xA5, 0xA9, 0xAD, 0xB1, 0xB5, 0xB9, 0xBD]

/-- `unknown opcode` stands for an undefined byte only (R66). -/
def Instr.wellFormed : Instr → Bool
  | .unknown opcode => !definedOpcodes.contains opcode
  | .ldaImm _ | .ldaZp _ | .ldaZpX _ | .ldaAbs _ | .ldaAbsX _ | .ldaAbsY _ | .ldaIndX _
  | .ldaIndY _ | .jsrAbs _ => true

end Sys2Proof
end

