-- ==== Sys2Proof/Decode.lean ====
section
/-! DEFINITION. The opcode table, the decoder and the encoder (30_encoding.md). -/

namespace Sys2Proof

/-- The nine entries of R64, in its order (static data, R37). The byte values are the standard
6502's by decision D1. PRESUMED (assumption log 3). -/
def opcodeTable : List OpcodeEntry :=
  [ ⟨0xA9, .imm, 2, false⟩, ⟨0xA5, .zp, 3, false⟩, ⟨0xB5, .zpx, 4, false⟩,
    ⟨0xAD, .abs, 4, false⟩, ⟨0xBD, .absx, 4, true⟩, ⟨0xB9, .absy, 4, true⟩,
    ⟨0xA1, .indx, 6, false⟩, ⟨0xB1, .indy, 5, true⟩, ⟨0x20, .jabs, 6, false⟩ ]

/-- Looking an opcode byte up compares all eight of its bits (R65). -/
def lookupOpcode (opcode : Byte) : Option OpcodeEntry :=
  opcodeTable.find? (fun e => e.opcode == opcode)

/-- The length in bytes of each format (R61). -/
def Format.length : Format → Nat
  | .op => 1
  | .imm | .zp | .zpx | .indx | .indy => 2
  | .abs | .absx | .absy | .jabs => 3

/-- Assemble the operand of a format from the bytes after the opcode (R61, R63) and hand on the
bytes not consumed. -/
def decodeOperand (opcode : Byte) : Format → List Byte → Except DecodeError (Instr × List Byte)
  | .op, rest => .ok (.unknown opcode, rest)
  | .imm, b :: rest => .ok (.ldaImm b, rest)
  | .zp, b :: rest => .ok (.ldaZp b, rest)
  | .zpx, b :: rest => .ok (.ldaZpX b, rest)
  | .indx, b :: rest => .ok (.ldaIndX b, rest)
  | .indy, b :: rest => .ok (.ldaIndY b, rest)
  | .abs, l :: h :: rest => .ok (.ldaAbs (wordOf h l), rest)
  | .absx, l :: h :: rest => .ok (.ldaAbsX (wordOf h l), rest)
  | .absy, l :: h :: rest => .ok (.ldaAbsY (wordOf h l), rest)
  | .jabs, l :: h :: rest => .ok (.jsrAbs (wordOf h l), rest)
  | _, _ => .error (.missingOperand opcode)

/-- Read one instruction from a list of bytes: the opcode byte selects a table entry (R65), and a
byte with no entry is the one-byte UnknownOpcode (R66). -/
def decode : List Byte → Except DecodeError (Instr × List Byte)
  | [] => .error .noOpcode
  | opcode :: rest =>
    match lookupOpcode opcode with
    | none => .ok (.unknown opcode, rest)
    | some e => decodeOperand opcode e.format rest

/-- The bytes of an instruction, in address order (R61, R64). -/
def encode : Instr → List Byte
  | .ldaImm b => [0xA9, b]
  | .ldaZp b => [0xA5, b]
  | .ldaZpX b => [0xB5, b]
  | .ldaAbs w => [0xAD, loByte w, hiByte w]
  | .ldaAbsX w => [0xBD, loByte w, hiByte w]
  | .ldaAbsY w => [0xB9, loByte w, hiByte w]
  | .ldaIndX b => [0xA1, b]
  | .ldaIndY b => [0xB1, b]
  | .jsrAbs w => [0x20, loByte w, hiByte w]
  | .unknown opcode => [opcode]

/-- The three bytes in memory order of an instruction numbered as spec/opcode_table.json numbers
its bits, those from bit `nbits` up being 0. -/
def tableBytes (nbits w : Nat) : List Byte :=
  [BitVec.ofNat 8 (w % 2 ^ nbits), BitVec.ofNat 8 (w % 2 ^ nbits / 2 ^ 8),
    BitVec.ofNat 8 (w % 2 ^ nbits / 2 ^ 16)]

/-- What the decoder reads from such an instruction. -/
def decodeTableWord (nbits w : Nat) : Option Instr :=
  match decode (tableBytes nbits w) with
  | .ok (i, _) => some i
  | .error _ => none

end Sys2Proof
end

