-- ==== Sys2Proof/Config.lean ====
section
/-! DEFINITION. The parameters of the hardware (00_scope.md section 4). The spec makes them
arguments of the model (10_state.md R37), so they are plain data that the state carries and
nothing writes (assumption log 1). -/

namespace Sys2Proof

/-- How a page-boundary crossing is detected (R10): the source leaves this open. -/
inductive PageCrossRule where
  | canonical
  | literal
deriving DecidableEq, Repr

/-- The parameters RESET_PC (R7), RESET_SP (R8) and PAGE_CROSS_RULE (R10). -/
structure Config where
  resetPc : Word
  resetSp : Byte
  pageCrossRule : PageCrossRule
deriving DecidableEq, Repr

/-- This hardware's values: 0xFFFC (R7), 0x00 (R8) and the default rule (R10). -/
def Config.thisHardware : Config where
  resetPc := 0xFFFC
  resetSp := 0x00
  pageCrossRule := .canonical

end Sys2Proof
end

