-- ==== Sys2Proof/Machine/State.lean ====
section
/-! DEFINITION. The state of the core (10_state.md), why a step or a host operation stops, and the
state after reset (70_reset_and_hazards.md R172). -/

namespace Sys2Proof.Machine

/-- The seven independent one-bit flags (R25 to R31). No packed status byte exists (R35). -/
structure Flags where
  c : Bool
  z : Bool
  i : Bool
  d : Bool
  b : Bool
  v : Bool
  n : Bool
deriving DecidableEq, Repr

/-- A diagnostic event (R33, R151): the undefined byte and the address it was fetched from. -/
inductive Event where
  | unknownOpcode (opcode : Byte) (pc : Word)
deriving DecidableEq, Repr

/-- The address space M (R32, R40) as a sparse list of (address, byte). -/
abbrev Memory := List Host.Cell

/-- What an unlisted address reads as: memory reset zero-fills (R32, R171). -/
def Memory.unlisted : Byte := 0x00

/-- The canonical form: addresses strictly rising, inside the address space, and no entry equal
to what an unlisted address reads as. -/
abbrev Memory.wf (m : Memory) : Prop :=
  m.Pairwise (fun p q => p.1 < q.1) ∧ ∀ p ∈ m, p.1 < 65536 ∧ p.2 ≠ Memory.unlisted

/-- The whole state. `remaining` and `cost` are the run-internal values of R34: a run is in
progress exactly while `remaining` is positive. `config` is the model's own (assumption log 1). -/
structure State where
  a : Byte
  x : Byte
  y : Byte
  sp : Byte
  pc : Word
  flags : Flags
  mem : Memory
  log : List Event
  remaining : Int
  cost : Int
  config : Config
deriving DecidableEq, Repr

/-- The core raises no exception (R150), so no meaning answers a fault. -/
inductive Fault where
  /-- Raised by `step` if the decoder refused the three bytes at PC. It never does (R67), so no
  state reaches this. Safe: the machine would only stop where the hardware goes on. -/
  | undecodedFetch (e : DecodeError)
deriving DecidableEq, Repr

/-- Why a request is not performed. -/
inductive Refusal where
  /-- Raised by a row of the opcode table with no meaning yet; no arm of `exec` raises it. Safe. -/
  | notModelled (mnemonic : String)
  /-- Raised by the host port for an address outside 0..65535 (R152, D20). Safe: the request has
  no effect. -/
  | addressOutOfRange (address : Int)
  /-- Raised by `construct` for an address space that is not 65536 bytes (R153). Safe. -/
  | malformedAddressSpace (size : Nat)
  /-- Raised by the host port for any operation while a run is in progress (R47, R175: no such
  host move exists). Safe. -/
  | runInProgress
deriving DecidableEq, Repr

/-- All flags clear (R25 to R31). -/
def Flags.allClear : Flags := ⟨false, false, false, false, false, false, false⟩

/-- The state after `Reset` (R172) with this hardware's parameters. `remaining` and `cost` are 0,
no run being in progress: DESIGN CHOICE (assumption log 5). -/
def State.reset : State where
  a := 0x00
  x := 0x00
  y := 0x00
  sp := Config.thisHardware.resetSp
  pc := Config.thisHardware.resetPc
  flags := Flags.allClear
  mem := []
  log := []
  remaining := 0
  cost := 0
  config := Config.thisHardware

end Sys2Proof.Machine
end

