-- ==== Sys2Proof/Machine/Ops.lean ====
section
/-! DEFINITION. The named operations over memory and registers. The core takes no exception and
returns from none (60_exceptions.md R150, R157, R158): its one event is `emit`. -/

namespace Sys2Proof.Machine

/-- The byte a list of cells holds at an address: the first cell there, else the unlisted value. -/
def Memory.lookup (k : Nat) : Memory → Byte
  | [] => Memory.unlisted
  | c :: rest => if c.1 = k then c.2 else Memory.lookup k rest

/-- `MemRead(a, 1)` (R17). -/
def Memory.read (m : Memory) (a : Word) : Byte := Memory.lookup a.toNat m

/-- Place a cell before the first one at a higher address. -/
def Memory.place (k : Nat) (v : Byte) : Memory → Memory
  | [] => [(k, v)]
  | c :: rest => if k < c.1 then (k, v) :: c :: rest else c :: Memory.place k v rest

/-- Drop what is listed at an address. -/
def Memory.erase (k : Nat) (m : Memory) : Memory := m.filter (fun c => c.1 != k)

/-- `MemWrite(a, 1, v)` (R17), keeping the canonical form. -/
def Memory.write (m : Memory) (a : Word) (v : Byte) : Memory :=
  if v = Memory.unlisted then Memory.erase a.toNat m
  else Memory.place a.toNat v (Memory.erase a.toNat m)

/-- Write bytes at consecutive addresses, wrapping at 65536 (R41). -/
def Memory.writeBytes (m : Memory) (a : Word) : List Byte → Memory
  | [] => m
  | b :: rest => Memory.writeBytes (Memory.write m a b) (a + 1) rest

/-- The cells of a plain array of bytes whose first byte stands at address `k`. -/
def Memory.ofBytes (k : Nat) : List Byte → Memory
  | [] => []
  | b :: rest =>
    if b = Memory.unlisted then Memory.ofBytes (k + 1) rest
    else (k, b) :: Memory.ofBytes (k + 1) rest

/-- The byte at an address (R17). -/
def State.read (s : State) (a : Word) : Byte := Memory.read s.mem a

/-- Set the byte at an address (R17). -/
def State.write (s : State) (a : Word) (v : Byte) : State := { s with mem := Memory.write s.mem a v }

/-- `Spend(n)` (R18). -/
def State.spend (s : State) (n : Int) : State := { s with cost := s.cost + n }

/-- `emit e` (R18, R33). -/
def State.emit (s : State) (e : Event) : State := { s with log := s.log ++ [e] }

/-- The stack page base (R9). -/
def stackBase : Word := 0x0100

/-- `StackAddr(sp, k)` (R141): the offset wraps inside page 1 (D4). -/
def stackAddr (sp k : Byte) : Word := stackBase + zext16 (sp + k)

/-- Write a word on the stack page, low byte first at the offset SP, and move SP up by 2
(R140, R141). -/
def State.pushWord (s : State) (w : Word) : State :=
  let s1 := (s.write (stackAddr s.sp 0) (loByte w)).write (stackAddr s.sp 1) (hiByte w)
  { s1 with sp := s.sp + 2 }

/-- The three bytes an instruction at PC can occupy, wrapping at 65536 (R60, R62). Reading all
three changes nothing, reads having no side effects (R46). -/
def State.fetchWindow (s : State) : List Byte :=
  [s.read s.pc, s.read (s.pc + 1), s.read (s.pc + 2)]

/-- The run the next instruction belongs to: the one in progress, else the `Run(1)` by which the
host single-steps (R163). DESIGN CHOICE (assumption log 2). -/
def State.openRun (s : State) : State := if 0 < s.remaining then s else { s with remaining := 1 }

/-- `remaining <- remaining - cost`, once the instruction has completed (R83). -/
def State.retire (s : State) : State := { s with remaining := s.remaining - s.cost }

/-- The run-internal values are gone between runs (R34). -/
def State.closeRun (s : State) : State := { s with remaining := 0, cost := 0 }

/-- Apply a function to the next state; a stop stays a stop. -/
def mapNext {σ τ : Type} (f : σ → τ) : Host.Outcome σ Fault Refusal → Host.Outcome τ Fault Refusal
  | .next s => .next (f s)
  | .fault r => .fault r
  | .refused r => .refused r

/-- Go on from the next state; a stop stays a stop. -/
def bindNext {σ τ : Type} (o : Host.Outcome σ Fault Refusal)
    (f : σ → Host.Outcome τ Fault Refusal) : Host.Outcome τ Fault Refusal :=
  match o with
  | .next s => f s
  | .fault r => .fault r
  | .refused r => .refused r

end Sys2Proof.Machine
end

