-- ==== Sys2Proof/Machine/Operands.lean ====
section
/-! DEFINITION. The addressing modes (41_addressing.md): where each mode's operand is, its cycles
and its penalty. -/

namespace Sys2Proof.Machine

/-- What a resolver returns (R100). -/
inductive Operand where
  | imm (v : Byte)
  | addr (ea : Word)
deriving DecidableEq, Repr

/-- The value of an operand (R100): the literal itself, or the byte at the effective address. -/
def State.operandValue (s : State) : Operand → Byte
  | .imm v => v
  | .addr ea => s.read ea

/-- Zero Page: the operand byte, zero-extended (R102). -/
def eaZp (z : Byte) : Word := zext16 z

/-- Zero Page,Indexed: the sum wraps at 256 (R103, R42). -/
def eaZpIndexed (z idx : Byte) : Word := zext16 (z + idx)

/-- Absolute,Indexed: a 16-bit sum that wraps at 65536 only (R105, R106). -/
def eaAbsIndexed (base : Word) (idx : Byte) : Word := base + zext16 idx

/-- A little-endian pointer in the zero page; its second byte wraps at 256 (R42, D6). -/
def State.zpPointer (s : State) (p : Byte) : Word :=
  wordOf (s.read (zext16 (p + 1))) (s.read (zext16 p))

/-- Indexed Indirect: the pointer at operand byte + X, modulo 256 (R107). -/
def State.eaIndX (s : State) (z : Byte) : Word := s.zpPointer (z + s.x)

/-- Indirect Indexed: Y added to the pointer at the operand byte (R109). -/
def State.eaIndY (s : State) (z : Byte) : Word := eaAbsIndexed (s.zpPointer z) s.y

/-- `PageCross(base, ea)` (R108). The difference of the literal rule is of unbounded integers. -/
def pageCross (rule : PageCrossRule) (base ea : Word) : Bool :=
  match rule with
  | .canonical => hiByte base != hiByte ea
  | .literal => decide (0xFF ≤ (ea.toNat : Int) - (base.toNat : Int))

/-- The penalty cycle of an indexed sum (R83, R108). -/
def State.penalty (s : State) (base : Word) (idx : Byte) : Int :=
  if pageCross s.config.pageCrossRule base (eaAbsIndexed base idx) then 1 else 0

/-- `modeCost` (R110), and the two target-fetch cycles of Jump-to-Subroutine (R140). Zero Page
costs 2 by 90_conflicts.md C1. -/
def modeCost : Format → Int
  | .op => 0
  | .imm => 1
  | .zp => 2
  | .zpx => 3
  | .abs => 3
  | .absx => 3
  | .absy => 3
  | .indx => 5
  | .indy => 4
  | .jabs => 2

/-- `opCost`: 3 for Jump-to-Subroutine (R140), 0 for Load-accumulator (R120). -/
def opCost : Format → Int
  | .jabs => 3
  | .op | .imm | .zp | .zpx | .abs | .absx | .absy | .indx | .indy => 0

/-- An instruction of this format has been fetched and has spent its cycles (R82, R83): PC is
past its bytes. -/
def State.passInstr (s : State) (f : Format) (penalty : Int) : State :=
  { s with
    pc := s.pc + BitVec.ofNat 16 f.length
    cost := 1 + modeCost f + penalty + opCost f }

end Sys2Proof.Machine
end

