-- ==== Sys2Proof/Machine/Control.lean ====
section
/-! DEFINITION. Jump-to-Subroutine (43_control.md) and UnknownOpcode (40_engine.md R88). -/

namespace Sys2Proof.Machine

/-- JSR abs (R140): the target is already fetched, the return address is that of the
instruction's last byte, and the stack grows upward. -/
def execJsrAbs (target : Word) (s : State) : Host.Outcome State Fault Refusal :=
  let fetched := s.passInstr .jabs 0
  .next { fetched.pushWord (fetched.pc - 1) with pc := target }

/-- UnknownOpcode (R88): one logged event with the address the byte came from, one cycle, and
nothing else. -/
def execUnknown (opcode : Byte) (s : State) : Host.Outcome State Fault Refusal :=
  .next ((s.passInstr .op 0).emit (.unknownOpcode opcode s.pc))

end Sys2Proof.Machine
end

