-- ==== Sys2Proof/Machine/Flags.lean ====
section
/-! DEFINITION. The one flag computation of the core (40_engine.md R89). -/

namespace Sys2Proof.Machine

/-- The flag-update rule of load-style operations: Z and N from the value, the other five
untouched (R89). -/
def loadFlags (f : Flags) (v : Byte) : Flags := { f with z := v == 0x00, n := v.getLsbD 7 }

end Sys2Proof.Machine
end

