-- ==== Sys2Proof/Machine/Load.lean ====
section
/-! DEFINITION. Load-accumulator in its eight forms (42_load.md). -/

namespace Sys2Proof.Machine

/-- `LoadA(o)` (R120) for an instruction of format `f`: the operand is read, the accumulator and
Z and N are written, and the form's cycles are spent. -/
def State.loadA (s : State) (f : Format) (penalty : Int) (o : Operand) : State :=
  { s.passInstr f penalty with
    a := s.operandValue o
    flags := loadFlags s.flags (s.operandValue o) }

/-- LDA #imm (R121). -/
def execLdaImm (imm8 : Byte) (s : State) : Host.Outcome State Fault Refusal :=
  .next (s.loadA .imm 0 (.imm imm8))

/-- LDA zp (R122). -/
def execLdaZp (zp8 : Byte) (s : State) : Host.Outcome State Fault Refusal :=
  .next (s.loadA .zp 0 (.addr (eaZp zp8)))

/-- LDA zp,X (R123). -/
def execLdaZpX (zp8 : Byte) (s : State) : Host.Outcome State Fault Refusal :=
  .next (s.loadA .zpx 0 (.addr (eaZpIndexed zp8 s.x)))

/-- LDA abs (R124). -/
def execLdaAbs (addr : Word) (s : State) : Host.Outcome State Fault Refusal :=
  .next (s.loadA .abs 0 (.addr addr))

/-- LDA abs,X (R125). -/
def execLdaAbsX (base : Word) (s : State) : Host.Outcome State Fault Refusal :=
  .next (s.loadA .absx (s.penalty base s.x) (.addr (eaAbsIndexed base s.x)))

/-- LDA abs,Y (R126). -/
def execLdaAbsY (base : Word) (s : State) : Host.Outcome State Fault Refusal :=
  .next (s.loadA .absy (s.penalty base s.y) (.addr (eaAbsIndexed base s.y)))

/-- LDA (zp,X) (R127). -/
def execLdaIndX (zp8 : Byte) (s : State) : Host.Outcome State Fault Refusal :=
  .next (s.loadA .indx 0 (.addr (s.eaIndX zp8)))

/-- LDA (zp),Y (R128). -/
def execLdaIndY (zp8 : Byte) (s : State) : Host.Outcome State Fault Refusal :=
  .next (s.loadA .indy (s.penalty (s.zpPointer zp8) s.y) (.addr (s.eaIndY zp8)))

end Sys2Proof.Machine
end

