-- ==== Sys2Proof/Machine/Step.lean ====
section
/-! DEFINITION. One step: one iteration of the engine's loop (40_engine.md R80). -/

namespace Sys2Proof.Machine

/-- Decode the bytes at PC, run that instruction to completion, and charge its cost to the run
it belongs to (R80, R83, R85). -/
def step (s : State) : Host.Outcome State Fault Refusal :=
  match decode s.fetchWindow with
  | .ok (i, _) => mapNext State.retire (exec i s.openRun)
  | .error e => .fault (.undecodedFetch e)

/-- The state with an instruction of the opcode table placed at PC, where the next step fetches.
It stands for the host's `WriteByte`s of R177 (assumption log 2). -/
def State.withFetchWord (s : State) (nbits w : Nat) : State :=
  { s with mem := Memory.writeBytes s.mem s.pc (tableBytes nbits w) }

end Sys2Proof.Machine
end

