-- ==== Sys2Proof/Machine/Engine.lean ====
section
/-! DEFINITION. The spec's own pseudocode, statement by statement: `FetchByte` and `FetchWord`
(00_scope.md R18), the resolvers (41_addressing.md R101 to R109), `LoadA` (42_load.md R120),
Jump-to-Subroutine (43_control.md R140) and the loop body of `run` (40_engine.md R80). It fetches
operands byte by byte, adds up cycles one `Spend` at a time, and does not use the decoder, the
table of costs or the meanings of `exec`; that `step` does the same is a statement for the
provers. -/

namespace Sys2Proof.Machine.Engine

/-- `FetchByte()` (R18). -/
def fetchByte (s : State) : Byte × State := (s.read s.pc, { s with pc := s.pc + 1 })

/-- `FetchWord()` (R18): the low byte first. -/
def fetchWord (s : State) : Word × State :=
  let (l, s) := fetchByte s
  let (h, s) := fetchByte s
  (wordOf h l, s)

/-- `Res_IMM()` (R101). -/
def resImm (s : State) : Operand × State :=
  let (v, s) := fetchByte s
  (.imm v, s.spend 1)

/-- `Res_ZP()` (R102). -/
def resZp (s : State) : Operand × State :=
  let (z, s) := fetchByte s
  (.addr (zext16 z), s.spend 1)

/-- `Res_ZPI(idx)` (R103). -/
def resZpi (idx : Byte) (s : State) : Operand × State :=
  let (z, s) := fetchByte s
  let s := s.spend 1
  let e := z + idx
  let s := s.spend 1
  (.addr (zext16 e), s)

/-- `Res_ABS()` (R104). -/
def resAbs (s : State) : Operand × State :=
  let (a, s) := fetchWord s
  (.addr a, s.spend 2)

/-- `Res_ABSI(idx)` (R105, R106). -/
def resAbsi (idx : Byte) (s : State) : Operand × State :=
  let (base, s) := fetchWord s
  let s := s.spend 2
  let ea := base + zext16 idx
  let s := if pageCross s.config.pageCrossRule base ea then s.spend 1 else s
  (.addr ea, s)

/-- `Res_INDX()` (R107). -/
def resIndx (s : State) : Operand × State :=
  let (z, s) := fetchByte s
  let s := s.spend 1
  let p := z + s.x
  let s := s.spend 1
  let l := s.read (zext16 p)
  let s := s.spend 1
  let h := s.read (zext16 (p + 1))
  let s := s.spend 1
  (.addr (wordOf h l), s)

/-- `Res_INDY()` (R109). -/
def resIndy (s : State) : Operand × State :=
  let (z, s) := fetchByte s
  let s := s.spend 1
  let l := s.read (zext16 z)
  let s := s.spend 1
  let h := s.read (zext16 (z + 1))
  let s := s.spend 1
  let base := wordOf h l
  let ea := base + zext16 s.y
  let s := if pageCross s.config.pageCrossRule base ea then s.spend 1 else s
  (.addr ea, s)

/-- `LoadOperand(o)` (R100). -/
def loadOperand : Operand × State → Byte × State
  | (.imm v, s) => (v, s)
  | (.addr ea, s) => (s.read ea, s.spend 1)

/-- `LoadA(o)` (R120). -/
def loadA (o : Operand × State) : State :=
  let (v, s) := loadOperand o
  let s := { s with a := v }
  { s with flags := { s.flags with z := if v = 0x00 then true else false, n := v.getLsbD 7 } }

/-- Jump-to-Subroutine after its opcode fetch (R140). -/
def jsr (s : State) : State :=
  let (target, s) := fetchWord s
  let s := s.spend 2
  let ret := s.pc - 1
  let s := (s.write (stackAddr s.sp 0) (loByte ret)).spend 1
  let s := (s.write (stackAddr s.sp 1) (hiByte ret)).spend 1
  let s := { s with sp := s.sp + 2 }
  let s := { s with pc := target }
  s.spend 1

/-- `ExecuteInstruction(op)` (R84), or the event of R88 where the table has no entry for the byte
(R64). The byte values are D1's. PRESUMED (assumption log 3). -/
def execute (op : Byte) (startPc : Word) (s : State) : State :=
  if op = 0xA9 then loadA (resImm s)
  else if op = 0xA5 then loadA (resZp s)
  else if op = 0xB5 then loadA (resZpi s.x s)
  else if op = 0xAD then loadA (resAbs s)
  else if op = 0xBD then loadA (resAbsi s.x s)
  else if op = 0xB9 then loadA (resAbsi s.y s)
  else if op = 0xA1 then loadA (resIndx s)
  else if op = 0xB1 then loadA (resIndy s)
  else if op = 0x20 then jsr s
  else s.emit (.unknownOpcode op startPc)

/-- The body of the `while` loop of `run` (R80). -/
def iteration (s : State) : State :=
  let s := { s with cost := 0 }
  let startPc := s.pc
  let (op, s) := fetchByte s
  let s := s.spend 1
  let s := execute op startPc s
  { s with remaining := s.remaining - s.cost }

end Sys2Proof.Machine.Engine
end

