-- ==== Sys2Proof/Machine/Run.lean ====
section
/-! DEFINITION. `run`, the cycle budgeter's loop (40_engine.md R80). -/

namespace Sys2Proof.Machine

/-- The `while remaining > 0` loop (R80), for at most `fuel` instructions. A budget of n needs no
more than n of them (R87). -/
def runLoop : Nat → State → Host.Outcome State Fault Refusal
  | 0, s => .next s
  | fuel + 1, s => if 0 < s.remaining then bindNext (step s) (runLoop fuel) else .next s

/-- `run(cyclesRequested)` (R80): the state at the end of the run and the cycles it spent, which
are `cyclesRequested - remaining` (R86). The run-internal values are gone afterwards (R34). -/
def run (cyclesRequested : Int) (s : State) : Host.Outcome (State × Int) Fault Refusal :=
  mapNext (fun t => (t.closeRun, cyclesRequested - t.remaining))
    (runLoop cyclesRequested.toNat { s with remaining := cyclesRequested, cost := 0 })

end Sys2Proof.Machine
end

