-- ==== Sys2Proof/Machine/HostPort.lean ====
section
/-! DEFINITION. The host interface (70_reset_and_hazards.md sections 1 to 3): the operations of
R175, each whole and atomic, and only between runs. -/

namespace Sys2Proof.Machine

/-- The 8-bit registers the host port names (R175). -/
inductive ByteReg where
  | a | x | y | sp
deriving DecidableEq, Repr

/-- The flags the host port names (R175). -/
inductive FlagName where
  | c | z | i | d | b | v | n
deriving DecidableEq, Repr

/-- One host operation (R175). An address is any integer, so that one outside the address space
can be asked for and refused (R152). -/
inductive HostRequest where
  | reset
  | processorReset
  | memoryReset
  | writeByte (address : Int) (v : Byte)
  | readByte (address : Int)
  | writeReg (r : ByteReg) (v : Byte)
  | writePc (v : Word)
  | writeFlag (f : FlagName) (v : Bool)
  | readReg (r : ByteReg)
  | readPc
  | readFlag (f : FlagName)
  | readLog
  | run (cyclesRequested : Int)
deriving DecidableEq, Repr

/-- What a host operation answers (the outputs column of R175). -/
inductive HostReply where
  | done
  | byte (v : Byte)
  | word (v : Word)
  | bit (v : Bool)
  | log (events : List Event)
  | cycles (consumed : Int)
deriving DecidableEq, Repr

/-- `ProcessorReset` (R170): every register and flag, and the log; not memory. What an earlier
idle step left in `remaining` and `cost`, which the spec gives no existence between runs (R34),
stays as it is: DESIGN CHOICE (assumption log 5). -/
def State.processorReset (s : State) : State :=
  { s with
    pc := s.config.resetPc
    sp := s.config.resetSp
    a := 0x00
    x := 0x00
    y := 0x00
    flags := Flags.allClear
    log := [] }

/-- `MemoryReset` (R171): every byte 0x00, which is what an unlisted address reads as. -/
def State.memoryReset (s : State) : State := { s with mem := [] }

/-- `Reset` (R172). It too leaves `remaining` and `cost` as they are: DESIGN CHOICE (assumption
log 5). -/
def State.fullReset (s : State) : State := s.processorReset.memoryReset

/-- An integer as an address, where it is one (R152). -/
def addressOf (address : Int) : Option Word :=
  if 0 ≤ address ∧ address ≤ 65535 then some (BitVec.ofNat 16 address.toNat) else none

/-- Read an 8-bit register. -/
def State.getReg (s : State) : ByteReg → Byte
  | .a => s.a
  | .x => s.x
  | .y => s.y
  | .sp => s.sp

/-- Write an 8-bit register and nothing else (R178). -/
def State.setReg (s : State) (r : ByteReg) (v : Byte) : State :=
  match r with
  | .a => { s with a := v }
  | .x => { s with x := v }
  | .y => { s with y := v }
  | .sp => { s with sp := v }

/-- Read a flag. -/
def Flags.get (f : Flags) : FlagName → Bool
  | .c => f.c
  | .z => f.z
  | .i => f.i
  | .d => f.d
  | .b => f.b
  | .v => f.v
  | .n => f.n

/-- Write a flag and no other (R35, R178). -/
def Flags.set (f : Flags) (name : FlagName) (v : Bool) : Flags :=
  match name with
  | .c => { f with c := v }
  | .z => { f with z := v }
  | .i => { f with i := v }
  | .d => { f with d := v }
  | .b => { f with b := v }
  | .v => { f with v := v }
  | .n => { f with n := v }

/-- A host operation between runs (R175). -/
def hostBetweenRuns (q : HostRequest) (s : State) :
    Host.Outcome (State × HostReply) Fault Refusal :=
  match q with
  | .reset => .next (s.fullReset, .done)
  | .processorReset => .next (s.processorReset, .done)
  | .memoryReset => .next (s.memoryReset, .done)
  | .writeByte address v =>
    match addressOf address with
    | some a => .next (s.write a v, .done)
    | none => .refused (.addressOutOfRange address)
  | .readByte address =>
    match addressOf address with
    | some a => .next (s, .byte (s.read a))
    | none => .refused (.addressOutOfRange address)
  | .writeReg r v => .next (s.setReg r v, .done)
  | .writePc v => .next ({ s with pc := v }, .done)
  | .writeFlag f v => .next ({ s with flags := s.flags.set f v }, .done)
  | .readReg r => .next (s, .byte (s.getReg r))
  | .readPc => .next (s, .word s.pc)
  | .readFlag f => .next (s, .bit (s.flags.get f))
  | .readLog => .next (s, .log s.log)
  | .run cyclesRequested =>
    mapNext (fun p => (p.1, .cycles p.2)) (Sys2Proof.Machine.run cyclesRequested s)

/-- A host operation: there is none while a run is in progress (R47, R175). -/
def hostAct (q : HostRequest) (s : State) : Host.Outcome (State × HostReply) Fault Refusal :=
  if 0 < s.remaining then .refused .runInProgress else hostBetweenRuns q s

/-- Constructing the core over a supplied array of bytes (R153), with the processor-only reset
that leaves them alone (R173, 90_conflicts.md C4). DESIGN CHOICE (assumption log 14). -/
def construct (config : Config) (bytes : List Byte) : Host.Outcome State Fault Refusal :=
  if bytes.length = 65536 then
    .next { State.reset with config := config, mem := Memory.ofBytes 0 bytes }.processorReset
  else .refused (.malformedAddressSpace bytes.length)

end Sys2Proof.Machine
end

