-- ==== Sys2Proof/Safety.lean ====
section
/-! DEFINITION. What a safe run is, and the other terms the statements use. -/

namespace Sys2Proof

/-- The eight Load-accumulator instructions (42_load.md R121 to R128). -/
def Instr.isLoad : Instr → Bool
  | .ldaImm _ | .ldaZp _ | .ldaZpX _ | .ldaAbs _ | .ldaAbsX _ | .ldaAbsY _ | .ldaIndX _
  | .ldaIndY _ => true
  | .jsrAbs _ | .unknown _ => false

namespace Machine

/-- The step does not stop (R150: no exception, no trap). -/
def State.goesOn (s : State) : Prop := ∃ t, step s = .next t

/-- Memory is in its canonical form. -/
def State.memoryCanonical (s : State) : Prop := Memory.wf s.mem

/-- Z and N describe the accumulator (R26, R31, R129): true after any Load-accumulator, and false
right after reset. -/
def State.flagsDescribeA (s : State) : Prop :=
  s.flags.z = decide (s.a = 0x00) ∧ s.flags.n = s.a.getLsbD 7

/-- The log holds undefined opcode bytes only (R33, R151). -/
def State.logUndefinedOnly (s : State) : Prop :=
  ∀ opcode pc, Event.unknownOpcode opcode pc ∈ s.log → opcode ∉ definedOpcodes

/-- What the rules of 42_load.md say a Load-accumulator of `len` bytes leaves when the operand is
`v`: A, Z and N written, PC past the instruction, the cycles spent, all else as before. -/
def State.afterLoad (s : State) (v : Byte) (len : Word) (cycles : Int) : State :=
  { s with
    a := v
    flags := { s.flags with z := decide (v = 0x00), n := v.getLsbD 7 }
    pc := s.pc + len
    cost := cycles }

/-- The penalty of R108 for the sum of a base address and an index, as a number of cycles. -/
def State.crossing (s : State) (base : Word) (idx : Byte) : Int :=
  if pageCross s.config.pageCrossRule base (BitVec.ofNat 16 (base.toNat + idx.toNat)) then 1 else 0

/-- The 16-bit little-endian pointer at zero-page address `p` (R107, R109, D6): low byte at `p`,
high byte at `(p + 1) mod 256`. -/
def State.pointerAt (s : State) (p : Nat) : Word :=
  BitVec.ofNat 16
    (256 * (Memory.read s.mem (BitVec.ofNat 16 ((p + 1) % 256))).toNat
      + (Memory.read s.mem (BitVec.ofNat 16 (p % 256))).toNat)

/-- `n` steps, stopping at the first stop. -/
def steps : Nat → State → Host.Outcome State Fault Refusal
  | 0, s => .next s
  | n + 1, s => bindNext (step s) (steps n)

end Machine
end Sys2Proof
end

