-- ==== Sys2Proof/Certificates/Slice0/Obligations.lean ====
section
/-! DEFINITION. The statements for the provers. Parameters are quantified over wherever the state
carries them, so each statement holds for both values of PAGE_CROSS_RULE. -/

open Sys2Proof Sys2Proof.Machine

/-! ## Load-accumulator (42_load.md): encoding, and the whole effect of each form -/

/-- R121: bytes A9 imm8; A is the literal, 2 cycles. -/
def Obligations.LoadImmediateResult : Prop :=
  (∀ imm8 rest, decode (0xA9 :: imm8 :: rest) = .ok (.ldaImm imm8, rest)) ∧
  ∀ imm8 s, exec (.ldaImm imm8) s = .next (s.afterLoad imm8 2 2)

/-- R122: bytes A5 zp8; A is the byte at that zero-page address, 3 cycles. -/
def Obligations.LoadZeroPageResult : Prop :=
  (∀ zp8 rest, decode (0xA5 :: zp8 :: rest) = .ok (.ldaZp zp8, rest)) ∧
  ∀ zp8 s, exec (.ldaZp zp8) s =
    .next (s.afterLoad (Memory.read s.mem (BitVec.ofNat 16 zp8.toNat)) 2 3)

/-- R123: bytes B5 zp8; the address is (zp8 + X) mod 256, 4 cycles. -/
def Obligations.LoadZeroPageXResult : Prop :=
  (∀ zp8 rest, decode (0xB5 :: zp8 :: rest) = .ok (.ldaZpX zp8, rest)) ∧
  ∀ zp8 s, exec (.ldaZpX zp8) s =
    .next (s.afterLoad
      (Memory.read s.mem (BitVec.ofNat 16 ((zp8.toNat + s.x.toNat) % 256))) 2 4)

/-- R124: bytes AD lo hi; the address is hi*256 + lo, 4 cycles. -/
def Obligations.LoadAbsoluteResult : Prop :=
  (∀ l h rest, decode (0xAD :: l :: h :: rest) =
    .ok (.ldaAbs (BitVec.ofNat 16 (256 * h.toNat + l.toNat)), rest)) ∧
  ∀ addr s, exec (.ldaAbs addr) s = .next (s.afterLoad (Memory.read s.mem addr) 3 4)

/-- R125: bytes BD lo hi; the address is (base + X) mod 65536, 4 cycles and the penalty. -/
def Obligations.LoadAbsoluteXResult : Prop :=
  (∀ l h rest, decode (0xBD :: l :: h :: rest) =
    .ok (.ldaAbsX (BitVec.ofNat 16 (256 * h.toNat + l.toNat)), rest)) ∧
  ∀ base s, exec (.ldaAbsX base) s =
    .next (s.afterLoad (Memory.read s.mem (BitVec.ofNat 16 (base.toNat + s.x.toNat))) 3
      (4 + s.crossing base s.x))

/-- R126: bytes B9 lo hi; as Absolute,X with Y for X. -/
def Obligations.LoadAbsoluteYResult : Prop :=
  (∀ l h rest, decode (0xB9 :: l :: h :: rest) =
    .ok (.ldaAbsY (BitVec.ofNat 16 (256 * h.toNat + l.toNat)), rest)) ∧
  ∀ base s, exec (.ldaAbsY base) s =
    .next (s.afterLoad (Memory.read s.mem (BitVec.ofNat 16 (base.toNat + s.y.toNat))) 3
      (4 + s.crossing base s.y))

/-- R127: bytes A1 zp8; the address is the pointer at (zp8 + X) mod 256, whose second byte wraps in
the zero page, 6 cycles. -/
def Obligations.LoadIndexedIndirectResult : Prop :=
  (∀ zp8 rest, decode (0xA1 :: zp8 :: rest) = .ok (.ldaIndX zp8, rest)) ∧
  ∀ zp8 s, exec (.ldaIndX zp8) s =
    .next (s.afterLoad (Memory.read s.mem (s.pointerAt (zp8.toNat + s.x.toNat))) 2 6)

/-- R128: bytes B1 zp8; the address is the pointer at zp8, whose second byte wraps in the zero
page, plus Y modulo 65536; 5 cycles and the penalty. -/
def Obligations.LoadIndirectIndexedResult : Prop :=
  (∀ zp8 rest, decode (0xB1 :: zp8 :: rest) = .ok (.ldaIndY zp8, rest)) ∧
  ∀ zp8 s, exec (.ldaIndY zp8) s =
    .next (s.afterLoad
      (Memory.read s.mem
        (BitVec.ofNat 16 ((s.pointerAt zp8.toNat).toNat + s.y.toNat))) 2
      (5 + s.crossing (s.pointerAt zp8.toNat) s.y))

/-- R89: Z says the value is 0, N is bit 7 of it (it is 0x80 or more), the other five flags are
untouched. -/
def Obligations.LoadFlagRule : Prop :=
  ∀ (f : Flags) (v : Byte),
    ((loadFlags f v).z = true ↔ v.toNat = 0) ∧ ((loadFlags f v).n = true ↔ 0x80 ≤ v.toNat) ∧
    (loadFlags f v).c = f.c ∧ (loadFlags f v).i = f.i ∧ (loadFlags f v).d = f.d ∧
    (loadFlags f v).b = f.b ∧ (loadFlags f v).v = f.v

/-- The frame of every Load-accumulator (R39, R120): X, Y, SP, C, I, D, B, V, the log, the budget
and every byte of memory are as before. -/
def Obligations.LoadFrame : Prop :=
  ∀ (i : Instr) (s t : State), i.isLoad = true → exec i s = .next t →
    t.x = s.x ∧ t.y = s.y ∧ t.sp = s.sp ∧
    t.flags.c = s.flags.c ∧ t.flags.i = s.flags.i ∧ t.flags.d = s.flags.d ∧
    t.flags.b = s.flags.b ∧ t.flags.v = s.flags.v ∧
    t.log = s.log ∧ t.remaining = s.remaining ∧ t.config = s.config ∧
    ∀ a, Memory.read t.mem a = Memory.read s.mem a

/-- R129: a Load-accumulator leaves Z = (A == 0) and N = A[7] from any state; no other instruction
changes A, Z or N; and right after reset the relation does not hold. -/
def Obligations.LoadsAloneSetAccumulator : Prop :=
  (∀ (i : Instr) (s t : State), exec i s = .next t →
    if i.isLoad then t.flagsDescribeA
    else t.a = s.a ∧ t.flags.z = s.flags.z ∧ t.flags.n = s.flags.n) ∧
  ¬ State.reset.flagsDescribeA

/-! ## Page crossing (41_addressing.md R108) -/

/-- R108: both rules' definitions, their equivalent forms, and where they differ. -/
def Obligations.PageCrossRules : Prop :=
  ∀ (base : Word) (idx : Byte) (ea : Word), ea = BitVec.ofNat 16 (base.toNat + idx.toNat) →
    (pageCross .canonical base ea = true ↔ base.toNat / 256 ≠ ea.toNat / 256) ∧
    (pageCross .canonical base ea = true ↔ 0x100 ≤ base.toNat % 256 + idx.toNat) ∧
    (pageCross .literal base ea = true ↔ 0xFF ≤ (ea.toNat : Int) - (base.toNat : Int)) ∧
    (pageCross .literal base ea = true ↔ idx = 0xFF ∧ base.toNat + 0xFF ≤ 0xFFFF) ∧
    (idx = 0xFF → base.toNat % 256 = 0 →
      pageCross .canonical base ea = false ∧ pageCross .literal base ea = true) ∧
    (idx ≠ 0xFF → 0x100 ≤ base.toNat % 256 + idx.toNat →
      pageCross .canonical base ea = true ∧ pageCross .literal base ea = false) ∧
    (0x10000 ≤ base.toNat + idx.toNat →
      pageCross .canonical base ea = true ∧ pageCross .literal base ea = false)

/-- The parameters, PAGE_CROSS_RULE among them, change only the cycle count of an instruction, never the address, the data or
anything else (R108, 95_test_vectors.md L2.4). -/
def Obligations.ParametersChangeOnlyCost : Prop :=
  ∀ (i : Instr) (s t : State) (c : Config), exec i s = .next t →
    ∃ cost, exec i { s with config := c } = .next { t with config := c, cost := cost }

/-! ## Jump-to-Subroutine (43_control.md) and UnknownOpcode (40_engine.md R88) -/

/-- R140: bytes 20 lo hi; the address of the instruction's last byte is written on the stack page,
low byte at 0x0100 + SP and high byte at 0x0100 + (SP + 1) mod 256; SP moves up by 2; PC is the
target; 6 cycles. The target is what stood in memory before the two writes. -/
def Obligations.JumpToSubroutineResult : Prop :=
  (∀ l h rest, decode (0x20 :: l :: h :: rest) =
    .ok (.jsrAbs (BitVec.ofNat 16 (256 * h.toNat + l.toNat)), rest)) ∧
  (∀ target s, exec (.jsrAbs target) s =
    .next { s with
      mem := Memory.write
        (Memory.write s.mem (BitVec.ofNat 16 (0x0100 + s.sp.toNat))
          (BitVec.ofNat 8 ((s.pc.toNat + 2) % 65536 % 256)))
        (BitVec.ofNat 16 (0x0100 + (s.sp.toNat + 1) % 256))
        (BitVec.ofNat 8 ((s.pc.toNat + 2) % 65536 / 256))
      sp := s.sp + 2
      pc := target
      cost := 6 }) ∧
  ∀ s, Memory.read s.mem s.pc = 0x20 → ∃ t, step s = .next t ∧
    t.pc.toNat = 256 * (Memory.read s.mem (s.pc + 2)).toNat + (Memory.read s.mem (s.pc + 1)).toNat

/-- The frame of Jump-to-Subroutine (R39, R140): every register but SP and PC, every flag, the log,
and every byte of memory but the two stack bytes. -/
def Obligations.JumpToSubroutineFrame : Prop :=
  ∀ (target : Word) (s t : State), exec (.jsrAbs target) s = .next t →
    t.a = s.a ∧ t.x = s.x ∧ t.y = s.y ∧ t.flags = s.flags ∧ t.log = s.log ∧
    t.remaining = s.remaining ∧ t.config = s.config ∧
    ∀ a, a ≠ stackAddr s.sp 0 → a ≠ stackAddr s.sp 1 →
      Memory.read t.mem a = Memory.read s.mem a

/-- R141: the stack address is 0x0100 + ((sp + k) mod 256), which lies in page 1; the two bytes of
one call are two addresses. -/
def Obligations.StackAddressRule : Prop :=
  ∀ sp k : Byte, (stackAddr sp k).toNat = 0x0100 + (sp.toNat + k.toNat) % 256 ∧
    0x0100 ≤ (stackAddr sp k).toNat ∧ (stackAddr sp k).toNat ≤ 0x01FF ∧
    stackAddr sp 0 ≠ stackAddr sp 1

/-- R55, R181: the bytes a call has just written are what the next fetch sees, whatever its target.
Each byte of the next fetch window is the return address's low or high byte where it lies on the
first or second stack byte, and otherwise what stood there before the call. -/
def Obligations.FetchSeesCallWrites : Prop :=
  ∀ (target : Word) (s t : State), exec (.jsrAbs target) s = .next t → ∀ k < 3,
    t.fetchWindow[k]? = some
      (if target + BitVec.ofNat 16 k = stackAddr s.sp 0 then
        BitVec.ofNat 8 ((s.pc.toNat + 2) % 65536 % 256)
      else if target + BitVec.ofNat 16 k = stackAddr s.sp 1 then
        BitVec.ofNat 8 ((s.pc.toNat + 2) % 65536 / 256)
      else Memory.read s.mem (target + BitVec.ofNat 16 k))

/-- R88: each of the 247 undefined bytes is an instruction of one byte that logs the byte and where
it came from, costs 1 cycle, and changes nothing else. -/
def Obligations.UnknownOpcodeResult : Prop :=
  ∀ opcode : Byte, opcode ∉ definedOpcodes →
    (∀ rest, decode (opcode :: rest) = .ok (.unknown opcode, rest)) ∧
    ∀ s, exec (.unknown opcode) s =
      .next { s with
        pc := s.pc + 1
        log := s.log ++ [.unknownOpcode opcode s.pc]
        cost := 1 }

/-- The frame of UnknownOpcode (R39, R88): A, X, Y, SP, every flag and every byte of memory. -/
def Obligations.UnknownOpcodeFrame : Prop :=
  ∀ (opcode : Byte) (s t : State), exec (.unknown opcode) s = .next t →
    t.a = s.a ∧ t.x = s.x ∧ t.y = s.y ∧ t.sp = s.sp ∧ t.flags = s.flags ∧
    t.remaining = s.remaining ∧ t.config = s.config ∧
    ∀ a, Memory.read t.mem a = Memory.read s.mem a

/-! ## Encoding (30_encoding.md) -/

/-- Words written out from the table of R64. -/
def Obligations.DecodesSampleWords : Prop :=
  decode [0b10101001, 0x84] = .ok (.ldaImm 0x84, []) ∧
  decode [0b10100101, 0x80] = .ok (.ldaZp 0x80, []) ∧
  decode [0b10110101, 0x80] = .ok (.ldaZpX 0x80, []) ∧
  decode [0b10101101, 0x02, 0x44] = .ok (.ldaAbs 0x4402, []) ∧
  decode [0b10111101, 0x02, 0x44] = .ok (.ldaAbsX 0x4402, []) ∧
  decode [0b10111001, 0x02, 0x44] = .ok (.ldaAbsY 0x4402, []) ∧
  decode [0b10100001, 0x02] = .ok (.ldaIndX 0x02, []) ∧
  decode [0b10110001, 0x02] = .ok (.ldaIndY 0x02, []) ∧
  decode [0b00100000, 0x42, 0x43] = .ok (.jsrAbs 0x4342, []) ∧
  decode [0b11101010, 0x42] = .ok (.unknown 0xEA, [0x42])

/-- Decoding what the encoder wrote gives the instruction back, for every well-formed instruction
and whatever bytes follow. -/
def Obligations.DecodeOfEncode : Prop :=
  ∀ (i : Instr) (rest : List Byte), i.wellFormed = true →
    decode (encode i ++ rest) = .ok (i, rest)

/-- The other direction: what is decoded is well-formed, and its encoding is the bytes consumed. -/
def Obligations.EncodeOfDecode : Prop :=
  ∀ (bs rest : List Byte) (i : Instr), decode bs = .ok (i, rest) →
    i.wellFormed = true ∧ encode i ++ rest = bs

/-- R67: any three bytes begin with an instruction, which takes as many of them as its format
says. -/
def Obligations.ThreeBytesAlwaysDecode : Prop :=
  ∀ (b0 b1 b2 : Byte) (rest : List Byte), ∃ i rest', decode (b0 :: b1 :: b2 :: rest) = .ok (i, rest') ∧
    rest'.length + i.format.length = rest.length + 3

/-- The decoder refuses only for want of bytes, and says which. -/
def Obligations.DecodeRefusesOnlyShortInput : Prop :=
  ∀ (bs : List Byte) (e : DecodeError), decode bs = .error e ↔
    (bs = [] ∧ e = .noOpcode) ∨
    ∃ opcode rest entry, bs = opcode :: rest ∧ lookupOpcode opcode = some entry ∧
      bs.length < entry.format.length ∧ e = .missingOperand opcode

/-- R64: an instruction costs its entry's base cost, and one cycle more only where the entry allows
a penalty. -/
def Obligations.TableBaseCosts : Prop :=
  ∀ (i : Instr) (s t : State) (opcode : Byte) (entry : OpcodeEntry),
    lookupOpcode opcode = some entry → entry.format = i.format → exec i s = .next t →
    t.cost = entry.baseCost ∨ (entry.penaltyPossible = true ∧ t.cost = entry.baseCost + 1)

/-- R182: the cycle cost of every instruction. -/
def Obligations.CycleCosts : Prop :=
  ∀ (i : Instr) (s : State), ∃ t, exec i s = .next t ∧ t.cost =
    match i with
    | .ldaImm _ => 2
    | .ldaZp _ => 3
    | .ldaZpX _ => 4
    | .ldaAbs _ => 4
    | .ldaAbsX base => 4 + s.crossing base s.x
    | .ldaAbsY base => 4 + s.crossing base s.y
    | .ldaIndX _ => 6
    | .ldaIndY zp8 => 5 + s.crossing (s.pointerAt zp8.toNat) s.y
    | .jsrAbs _ => 6
    | .unknown _ => 1

/-! ## The step -/

/-- A step runs the instruction its bytes decode to, from the state in which a run is in progress
(an idle core starts `Run(1)`, the model's choice, assumption log 2), and charges its cost. -/
def Obligations.StepRunsDecoded : Prop :=
  ∀ (s : State) (i : Instr) (rest : List Byte),
    decode [Memory.read s.mem s.pc, Memory.read s.mem (s.pc + 1), Memory.read s.mem (s.pc + 2)]
      = .ok (i, rest) →
    step s =
      match exec i (if 0 < s.remaining then s else { s with remaining := 1 }) with
      | .next t => .next { t with remaining := t.remaining - t.cost }
      | .fault r => .fault r
      | .refused r => .refused r

/-- R150: no state stops the core. -/
def Obligations.StepNeverStops : Prop := ∀ s : State, s.goesOn

/-- The step is the spec's own pseudocode: the loop body of R80 with the byte-by-byte fetches of
R18, the resolvers of R101 to R109, LoadA of R120 and Jump-to-Subroutine of R140, cycles added up
one Spend at a time. -/
def Obligations.StepIsSpecPseudocode : Prop :=
  ∀ s : State, step s = .next (Engine.iteration s.openRun)

/-- R39: who writes what, over a whole step. -/
def Obligations.StepWriteMatrix : Prop :=
  ∀ (s t : State) (i : Instr) (rest : List Byte),
    decode s.fetchWindow = .ok (i, rest) → step s = .next t →
    t.x = s.x ∧ t.y = s.y ∧ t.config = s.config ∧
    t.flags.c = s.flags.c ∧ t.flags.i = s.flags.i ∧ t.flags.d = s.flags.d ∧
    t.flags.b = s.flags.b ∧ t.flags.v = s.flags.v ∧
    (i.isLoad = false → t.a = s.a ∧ t.flags.z = s.flags.z ∧ t.flags.n = s.flags.n) ∧
    (i.format ≠ .jabs → t.sp = s.sp ∧ ∀ a, Memory.read t.mem a = Memory.read s.mem a) ∧
    (i.format ≠ .op → t.log = s.log)

/-- R143: PC moves past the instruction's bytes, modulo 65536, or to the target of a call. -/
def Obligations.ProgramCounterMoves : Prop :=
  ∀ (s t : State) (i : Instr) (rest : List Byte),
    decode s.fetchWindow = .ok (i, rest) → step s = .next t →
    (∀ target, i = .jsrAbs target → t.pc = target) ∧
    (i.format ≠ .jabs → t.pc.toNat = (s.pc.toNat + (encode i).length) % 65536)

/-- A, the flags and the log are never read (R20, R25 to R31, R33, R39). Whatever they held, the
step does the same to all the rest; a load leaves the same A, Z and N and keeps the other five
flags; Jump-to-Subroutine and UnknownOpcode keep A and every flag; and the log is kept, but for the
same event where the byte is undefined. -/
def Obligations.AccumulatorFlagsLogNeverRead : Prop :=
  ∀ (s t : State) (i : Instr) (rest : List Byte) (a : Byte) (f : Flags) (l : List Event),
    decode s.fetchWindow = .ok (i, rest) → step s = .next t →
    step { s with a := a, flags := f, log := l } =
      .next { t with
        a := if i.isLoad then t.a else a
        flags := if i.isLoad then { f with z := t.flags.z, n := t.flags.n } else f
        log := match i with
          | .unknown opcode => l ++ [.unknownOpcode opcode s.pc]
          | _ => l }

/-- The log only grows, by the event of an undefined byte at most (R33, R151, R156). -/
def Obligations.LogGrowsByUndefinedOpcodes : Prop :=
  ∀ s t : State, step s = .next t →
    if Memory.read s.mem s.pc ∈ definedOpcodes then t.log = s.log
    else t.log = s.log ++ [.unknownOpcode (Memory.read s.mem s.pc) s.pc]

/-! ## Invariants -/

/-- Every step keeps memory in its canonical form, so equal memories stay equal data. -/
def Obligations.StepKeepsMemoryCanonical : Prop :=
  ∀ s t : State, s.memoryCanonical → step s = .next t → t.memoryCanonical

/-- So does every host operation, a whole run among them. -/
def Obligations.HostKeepsMemoryCanonical : Prop :=
  ∀ (q : HostRequest) (s t : State) (r : HostReply), s.memoryCanonical →
    hostAct q s = .next (t, r) → t.memoryCanonical

/-- Canonical memories that read alike are the same data. -/
def Obligations.EqualReadsEqualMemory : Prop :=
  ∀ m n : Memory, Memory.wf m → Memory.wf n → (∀ a, Memory.read m a = Memory.read n a) → m = n

/-- Once Z and N describe A, every step keeps it so (R129). -/
def Obligations.StepKeepsFlagsDescribeA : Prop :=
  ∀ s t : State, s.flagsDescribeA → step s = .next t → t.flagsDescribeA

/-- The log holds undefined bytes only (R151), and every step keeps it so. -/
def Obligations.StepKeepsLogUndefinedOnly : Prop :=
  ∀ s t : State, s.logUndefinedOnly → step s = .next t → t.logUndefinedOnly

/-- Both invariants of data hold at reset. -/
def Obligations.ResetMeetsInvariants : Prop :=
  State.reset.memoryCanonical ∧ State.reset.logUndefinedOnly

/-! ## The budget (40_engine.md R80 to R87, R163, R176) -/

/-- While a run is in progress a step spends 1 to 6 cycles of its budget, which is its cost. -/
def Obligations.StepSpendsBudget : Prop :=
  ∀ s : State, 0 < s.remaining → ∃ t, step s = .next t ∧
    t.remaining = s.remaining - t.cost ∧ 1 ≤ t.cost ∧ t.cost ≤ 6

/-- R81: the budget is tested before each instruction, and only then, for being positive; a budget
of 0 or less executes nothing, changes no register, flag, byte or log entry, and returns 0. That
`remaining` and `cost` are 0 after it is the model's choice (assumption log 5). -/
def Obligations.BudgetTestedBeforeFetch : Prop :=
  (∀ (fuel : Nat) (s : State), s.remaining ≤ 0 → runLoop fuel s = .next s) ∧
  (∀ (fuel : Nat) (s : State), 0 < s.remaining →
    ∃ t, step s = .next t ∧ runLoop (fuel + 1) s = runLoop fuel t) ∧
  ∀ (n : Int) (s : State), n ≤ 0 → run n s = .next ({ s with remaining := 0, cost := 0 }, 0)

/-- R87: a run of budget n > 0 ends, after at most n instructions; before each of them the budget
was positive, and at the end it is spent. The result is the state after those steps and the cycles
they cost (R80). That `remaining` and `cost` are 0 after the run is the model's choice (assumption
log 5). -/
def Obligations.RunTerminates : Prop :=
  ∀ (n : Int) (s : State), 0 < n → ∃ (m : Nat) (u : State),
    0 < m ∧ (m : Int) ≤ n ∧
    steps m { s with remaining := n, cost := 0 } = .next u ∧ u.remaining ≤ 0 ∧
    (∀ j < m, ∃ v, steps j { s with remaining := n, cost := 0 } = .next v ∧ 0 < v.remaining) ∧
    run n s = .next ({ u with remaining := 0, cost := 0 }, n - u.remaining)

/-- R86: a run returns the budget less what remains, between the request and 5 more. That
`remaining` and `cost` are 0 after it is the model's choice (assumption log 5). -/
def Obligations.RunReturnsWithinFive : Prop :=
  ∀ (n : Int) (s : State), 0 < n → ∃ u k,
    runLoop n.toNat { s with remaining := n, cost := 0 } = .next u ∧
    run n s = .next ({ u with remaining := 0, cost := 0 }, k) ∧ k = n - u.remaining ∧
    n ≤ k ∧ k ≤ n + 5

/-- R176: a run and then another reach the state of one run whose budget covers both, and cost
together what it costs (R90: a run changes state only through its instructions). -/
def Obligations.RunsCompose : Prop :=
  ∀ (n m k j : Int) (s t u : State), 0 < n → 0 < m → run n s = .next (t, k) →
    run m t = .next (u, j) → run (k + m) s = .next (u, k + j)

/-- R163: a step of an idle core is the host's `Run(1)`: the same state, and the instruction's cost
as the cycles returned. That an idle core steps so, and that `remaining` and `cost` are 0
after a run, is the model's choice (assumption log 2, log 5). -/
def Obligations.IdleStepIsRunOfOne : Prop :=
  ∀ s t : State, s.remaining ≤ 0 → step s = .next t →
    run 1 s = .next ({ t with remaining := 0, cost := 0 }, t.cost)

/-! ## Reset and the host (70_reset_and_hazards.md) -/

/-- R170: ProcessorReset sets every register and flag, clears the log, and leaves memory. That
`remaining` and `cost` stay as they were is the model's choice (assumption log 5). -/
def Obligations.ProcessorResetResult : Prop :=
  ∀ s : State, s.remaining ≤ 0 → hostAct .processorReset s =
    .next ({ s with
      pc := s.config.resetPc, sp := s.config.resetSp, a := 0, x := 0, y := 0,
      flags := ⟨false, false, false, false, false, false, false⟩, log := [] }, .done)

/-- R171: MemoryReset makes every byte 0x00 and touches no register. -/
def Obligations.MemoryResetResult : Prop :=
  ∀ s : State, s.remaining ≤ 0 → ∃ m, hostAct .memoryReset s = .next ({ s with mem := m }, .done) ∧
    ∀ a, Memory.read m a = 0x00

/-- R172: the state after Reset on this hardware, and what the core does if run in it:
it executes UnknownOpcode at 0xFFFC. That the operation leaves `remaining` and `cost` as they were
is the model's choice (assumption log 5). -/
def Obligations.ResetResult : Prop :=
  State.reset.pc = 0xFFFC ∧ State.reset.sp = 0x00 ∧ State.reset.a = 0x00 ∧
  State.reset.x = 0x00 ∧ State.reset.y = 0x00 ∧
  State.reset.flags = ⟨false, false, false, false, false, false, false⟩ ∧
  (∀ a, Memory.read State.reset.mem a = 0x00) ∧ State.reset.log = [] ∧
  (∀ s : State, s.remaining ≤ 0 → s.config = Config.thisHardware →
    hostAct .reset s =
      .next ({ State.reset with remaining := s.remaining, cost := s.cost }, .done)) ∧
  ∃ t, run 1 State.reset = .next (t, 1) ∧ t.pc = 0xFFFD ∧ t.log = [.unknownOpcode 0x00 0xFFFC]

/-- R177: WriteByte writes exactly one byte and changes nothing else. -/
def Obligations.HostWritesOneByte : Prop :=
  ∀ (s : State) (address : Int) (v : Byte), s.remaining ≤ 0 →
    if 0 ≤ address ∧ address ≤ 65535 then
      ∃ m, hostAct (.writeByte address v) s = .next ({ s with mem := m }, .done) ∧
        ∀ a : Word, Memory.read m a = if (a.toNat : Int) = address then v else Memory.read s.mem a
    else hostAct (.writeByte address v) s = .refused (.addressOutOfRange address)

/-- R178: a host write to a register or flag changes only that register or flag. -/
def Obligations.HostWritesOneRegister : Prop :=
  ∀ s : State, s.remaining ≤ 0 →
    (∀ v, hostAct (.writeReg .a v) s = .next ({ s with a := v }, .done)) ∧
    (∀ v, hostAct (.writeReg .x v) s = .next ({ s with x := v }, .done)) ∧
    (∀ v, hostAct (.writeReg .y v) s = .next ({ s with y := v }, .done)) ∧
    (∀ v, hostAct (.writeReg .sp v) s = .next ({ s with sp := v }, .done)) ∧
    (∀ v, hostAct (.writePc v) s = .next ({ s with pc := v }, .done)) ∧
    (∀ f v, ∃ g, hostAct (.writeFlag f v) s = .next ({ s with flags := g }, .done) ∧
      ∀ f', g.get f' = if f' = f then v else s.flags.get f')

/-- R179: ReadReg, ReadByte and ReadLog answer what the state holds and change nothing; a byte
outside the address space is refused (R152). -/
def Obligations.HostReadsChangeNothing : Prop :=
  ∀ s : State, s.remaining ≤ 0 →
    hostAct (.readReg .a) s = .next (s, .byte s.a) ∧
    hostAct (.readReg .x) s = .next (s, .byte s.x) ∧
    hostAct (.readReg .y) s = .next (s, .byte s.y) ∧
    hostAct (.readReg .sp) s = .next (s, .byte s.sp) ∧
    hostAct .readPc s = .next (s, .word s.pc) ∧
    hostAct (.readFlag .c) s = .next (s, .bit s.flags.c) ∧
    hostAct (.readFlag .z) s = .next (s, .bit s.flags.z) ∧
    hostAct (.readFlag .i) s = .next (s, .bit s.flags.i) ∧
    hostAct (.readFlag .d) s = .next (s, .bit s.flags.d) ∧
    hostAct (.readFlag .b) s = .next (s, .bit s.flags.b) ∧
    hostAct (.readFlag .v) s = .next (s, .bit s.flags.v) ∧
    hostAct (.readFlag .n) s = .next (s, .bit s.flags.n) ∧
    hostAct .readLog s = .next (s, .log s.log) ∧
    (∀ a : Word, hostAct (.readByte a.toNat) s = .next (s, .byte (Memory.read s.mem a))) ∧
    ∀ address : Int, ¬ (0 ≤ address ∧ address ≤ 65535) →
      hostAct (.readByte address) s = .refused (.addressOutOfRange address)

/-- No host operation is performed while a run is in progress (R47, R175). -/
def Obligations.NoHostOperationDuringRun : Prop :=
  ∀ (q : HostRequest) (s : State), 0 < s.remaining → hostAct q s = .refused .runInProgress

/-- R153: an address space of any size but 65536 bytes is refused; one of that size is what the
core then reads. -/
def Obligations.ConstructNeedsWholeAddressSpace : Prop :=
  ∀ (c : Config) (bytes : List Byte),
    if bytes.length = 65536 then
      ∃ s, construct c bytes = .next s ∧ s.memoryCanonical ∧ s.pc = c.resetPc ∧
        ∀ a : Word, bytes[a.toNat]? = some (Memory.read s.mem a)
    else construct c bytes = .refused (.malformedAddressSpace bytes.length)

/-- A word of the opcode table placed by `withFetchWord` is what the next step decodes. -/
def Obligations.PlacedWordIsFetched : Prop :=
  ∀ (s : State) (nbits w : Nat), ∃ i rest,
    decodeTableWord nbits w = some i ∧ decode (s.withFetchWord nbits w).fetchWindow = .ok (i, rest)

/-- R175: the host's Run, between runs, answers the state `run` answers and the cycles it spent,
whatever the budget. -/
def Obligations.HostRunAnswersCycles : Prop :=
  ∀ (n : Int) (s : State), s.remaining ≤ 0 → ∃ t k, run n s = .next (t, k) ∧
    hostAct (.run n) s = .next (t, .cycles k)
end

