-- ==== Sys2Proof/Laws/Decode.lean ====
section
/-! SUPPORT. The opcode table's small lemmas. -/

namespace Sys2Proof

/-- The bytes with no table entry are the 247 of R66: the table of R64 and the list of R66
agree. -/
theorem lookupOpcode_eq_none_iff (opcode : Byte) :
    lookupOpcode opcode = none ↔ opcode ∉ definedOpcodes := by
  simp only [lookupOpcode, opcodeTable, definedOpcodes, List.find?_eq_none, List.mem_cons,
    List.not_mem_nil, or_false]
  constructor
  · intro h hm
    rcases hm with rfl | rfl | rfl | rfl | rfl | rfl | rfl | rfl | rfl <;> simp at h
  · intro h e he
    rcases he with rfl | rfl | rfl | rfl | rfl | rfl | rfl | rfl | rfl <;> simp <;>
      (rintro rfl; simp at h)

/-- The entry found is one of the table's, for that very byte. -/
theorem lookupOpcode_eq_some {opcode : Byte} {e : OpcodeEntry}
    (h : lookupOpcode opcode = some e) : e ∈ opcodeTable ∧ e.opcode = opcode :=
  ⟨List.mem_of_find?_eq_some h, by simpa using List.find?_some h⟩

@[simp] theorem decode_nil : decode [] = .error .noOpcode := rfl

theorem decode_of_none {opcode : Byte} (h : lookupOpcode opcode = none) (rest : List Byte) :
    decode (opcode :: rest) = .ok (.unknown opcode, rest) := by
  simp [decode, h]

theorem decode_of_some {opcode : Byte} {e : OpcodeEntry} (h : lookupOpcode opcode = some e)
    (rest : List Byte) : decode (opcode :: rest) = decodeOperand opcode e.format rest := by
  simp [decode, h]

/-- The entries that can be found. -/
theorem lookupOpcode_cases {opcode : Byte} {e : OpcodeEntry} (h : lookupOpcode opcode = some e) :
    (opcode = 0xA9 ∧ e.format = .imm) ∨ (opcode = 0xA5 ∧ e.format = .zp) ∨
    (opcode = 0xB5 ∧ e.format = .zpx) ∨ (opcode = 0xAD ∧ e.format = .abs) ∨
    (opcode = 0xBD ∧ e.format = .absx) ∨ (opcode = 0xB9 ∧ e.format = .absy) ∨
    (opcode = 0xA1 ∧ e.format = .indx) ∨ (opcode = 0xB1 ∧ e.format = .indy) ∨
    (opcode = 0x20 ∧ e.format = .jabs) := by
  obtain ⟨hm, rfl⟩ := lookupOpcode_eq_some h
  simp only [opcodeTable, List.mem_cons, List.not_mem_nil, or_false] at hm
  rcases hm with rfl | rfl | rfl | rfl | rfl | rfl | rfl | rfl | rfl <;> simp

/-- `unknown` is well-formed exactly for a byte without a table entry. -/
@[simp] theorem wellFormed_unknown (opcode : Byte) :
    (Instr.unknown opcode).wellFormed = true ↔ lookupOpcode opcode = none := by
  rw [lookupOpcode_eq_none_iff]
  simp [Instr.wellFormed]

end Sys2Proof
end

