-- ==== Sys2Proof/Laws/Memory.lean ====
section
/-! SUPPORT. Memory: a read after a write, and the canonical form that every operation keeps.
The read laws hold of every list of cells, canonical or not. -/

namespace Sys2Proof.Machine

@[simp] theorem Memory.lookup_nil (k : Nat) : Memory.lookup k [] = Memory.unlisted := rfl

theorem Memory.lookup_cons (k : Nat) (c : Host.Cell) (m : Memory) :
    Memory.lookup k (c :: m) = if c.1 = k then c.2 else Memory.lookup k m := rfl

@[simp] theorem Memory.read_empty (a : Word) : Memory.read [] a = 0x00 := rfl

theorem Memory.lookup_erase (k j : Nat) (m : Memory) :
    Memory.lookup j (Memory.erase k m) = if j = k then Memory.unlisted else Memory.lookup j m := by
  induction m with
  | nil => simp [Memory.erase]
  | cons c m ih =>
    unfold Memory.erase at ih ⊢
    by_cases hc : c.1 = k
    · simp only [List.filter_cons, hc, bne_self_eq_false, Bool.false_eq_true, if_false, ih,
        Memory.lookup_cons]
      grind
    · simp only [List.filter_cons, bne_iff_ne.mpr hc, if_true, Memory.lookup_cons, ih]
      grind

theorem Memory.lookup_place (k j : Nat) (v : Byte) (m : Memory) (h : ∀ c ∈ m, c.1 ≠ k) :
    Memory.lookup j (Memory.place k v m) = if j = k then v else Memory.lookup j m := by
  induction m with
  | nil => simp [Memory.place, Memory.lookup_cons]; grind
  | cons c m ih =>
    have hc : c.1 ≠ k := h c (by simp)
    have ih := ih (fun d hd => h d (by simp [hd]))
    unfold Memory.place
    split <;> simp only [Memory.lookup_cons, ih] <;> grind

theorem Memory.erase_ne (k : Nat) (m : Memory) : ∀ c ∈ Memory.erase k m, c.1 ≠ k := by
  intro c hc
  simpa [Memory.erase] using (List.mem_filter.mp hc).2

/-- A read after a write (R17, R46): the byte written there, every other byte as before. -/
theorem Memory.read_write (m : Memory) (a b : Word) (v : Byte) :
    Memory.read (Memory.write m a v) b = if b = a then v else Memory.read m b := by
  have hab : b.toNat = a.toNat ↔ b = a := ⟨BitVec.eq_of_toNat_eq, congrArg _⟩
  unfold Memory.read Memory.write
  split
  · simp only [Memory.lookup_erase, hab]
    grind
  · simp only [Memory.lookup_place _ _ _ _ (Memory.erase_ne _ _), Memory.lookup_erase, hab]
    grind

@[simp] theorem Memory.read_write_same (m : Memory) (a : Word) (v : Byte) :
    Memory.read (Memory.write m a v) a = v := by simp [Memory.read_write]

theorem Memory.read_write_other {m : Memory} {a b : Word} {v : Byte} (h : b ≠ a) :
    Memory.read (Memory.write m a v) b = Memory.read m b := by simp [Memory.read_write, h]

/-! The canonical form. -/

@[simp] theorem Memory.wf_empty : Memory.wf [] := by simp [Memory.wf]

theorem Memory.wf_erase (k : Nat) {m : Memory} (h : Memory.wf m) : Memory.wf (Memory.erase k m) :=
  ⟨h.1.filter _, fun p hp => h.2 p (List.mem_filter.mp hp).1⟩

theorem Memory.mem_place {k : Nat} {v : Byte} {m : Memory} {p : Host.Cell} :
    p ∈ Memory.place k v m ↔ p = (k, v) ∨ p ∈ m := by
  induction m with
  | nil => simp [Memory.place]
  | cons c m ih => unfold Memory.place; split <;> simp [ih]; tauto

theorem Memory.wf_place {k : Nat} {v : Byte} {m : Memory} (h : Memory.wf m) (hk : k < 65536)
    (hv : v ≠ Memory.unlisted) (hne : ∀ c ∈ m, c.1 ≠ k) : Memory.wf (Memory.place k v m) := by
  refine ⟨?_, fun p hp => ?_⟩
  · have hs := h.1
    clear h
    induction m with
    | nil => simp [Memory.place]
    | cons c m ih =>
      have ih := ih (fun d hd => hne d (by simp [hd])) hs.of_cons
      have hc : c.1 ≠ k := hne c (by simp)
      have hlt := (List.pairwise_cons.mp hs).1
      unfold Memory.place
      split
      · rename_i hkc
        refine List.pairwise_cons.mpr ⟨fun d hd => ?_, hs⟩
        rcases List.mem_cons.mp hd with rfl | hd
        · exact hkc
        · exact Nat.lt_trans hkc (hlt d hd)
      · refine List.pairwise_cons.mpr ⟨fun d hd => ?_, ih⟩
        rcases Memory.mem_place.mp hd with rfl | hd
        · show c.1 < k
          omega
        · exact hlt d hd
  · rcases Memory.mem_place.mp hp with rfl | hp
    · exact ⟨hk, hv⟩
    · exact h.2 p hp

/-- A write keeps the canonical form. -/
theorem Memory.wf_write {m : Memory} (h : Memory.wf m) (a : Word) (v : Byte) :
    Memory.wf (Memory.write m a v) := by
  unfold Memory.write
  split
  · exact Memory.wf_erase _ h
  · exact Memory.wf_place (Memory.wf_erase _ h) a.isLt ‹_› (Memory.erase_ne _ _)

/-- So do writes of several bytes. -/
theorem Memory.wf_writeBytes {m : Memory} (h : Memory.wf m) (a : Word) (bs : List Byte) :
    Memory.wf (Memory.writeBytes m a bs) := by
  induction bs generalizing m a with
  | nil => exact h
  | cons b bs ih => exact ih (Memory.wf_write h a b) (a + 1)

theorem Memory.ofBytes_bounds {k : Nat} {bs : List Byte} {p : Host.Cell}
    (h : p ∈ Memory.ofBytes k bs) : k ≤ p.1 ∧ p.1 < k + bs.length ∧ p.2 ≠ Memory.unlisted := by
  induction bs generalizing k with
  | nil => simp [Memory.ofBytes] at h
  | cons b bs ih =>
    simp only [List.length_cons]
    unfold Memory.ofBytes at h
    split at h
    · have := ih h; grind
    · rcases List.mem_cons.mp h with rfl | h
      · exact ⟨by simp, by simp, ‹_›⟩
      · have := ih h; grind

/-- An array that fits the address space gives a canonical memory. -/
theorem Memory.wf_ofBytes {k : Nat} {bs : List Byte} (h : k + bs.length ≤ 65536) :
    Memory.wf (Memory.ofBytes k bs) := by
  refine ⟨?_, fun p hp => ?_⟩
  · clear h
    induction bs generalizing k with
    | nil => simp [Memory.ofBytes]
    | cons b bs ih =>
      unfold Memory.ofBytes
      split
      · exact ih
      · refine List.pairwise_cons.mpr ⟨fun d hd => ?_, ih⟩
        have := Memory.ofBytes_bounds hd
        show k < d.1
        omega
  · have := Memory.ofBytes_bounds hp
    exact ⟨by omega, this.2.2⟩

/-- What a plain array reads as: its own bytes. -/
theorem Memory.lookup_ofBytes (k j : Nat) (bs : List Byte) :
    Memory.lookup j (Memory.ofBytes k bs) =
      if k ≤ j then (bs[j - k]?).getD Memory.unlisted else Memory.unlisted := by
  induction bs generalizing k with
  | nil => simp [Memory.ofBytes]
  | cons b bs ih =>
    have step : ∀ h : k < j, (b :: bs)[j - k]? = bs[j - (k + 1)]? := by
      intro h
      rw [show j - k = (j - (k + 1)) + 1 by omega, List.getElem?_cons_succ]
    unfold Memory.ofBytes
    rcases Nat.lt_trichotomy k j with h | rfl | h
    · have hk : k ≠ j := by omega
      have h1 : k + 1 ≤ j := by omega
      split <;> simp [Memory.lookup_cons, ih, hk, h1, h.le, step h]
    · split <;> simp_all [Memory.lookup_cons]
    · have h1 : ¬ k + 1 ≤ j := by omega
      split <;> simp [Memory.lookup_cons, ih, h1, h.not_ge, h.ne']

end Sys2Proof.Machine
end

