-- ==== Sys2Proof/Laws/State.lean ====
section
/-! SUPPORT. One lemma for each field of the state under each update, so that no proof unfolds an
update; and the outcomes' small lemmas. -/

namespace Sys2Proof.Machine

@[simp] theorem State.write_a (s : State) (a : Word) (v : Byte) :
    (s.write a v).a = s.a := rfl
@[simp] theorem State.write_x (s : State) (a : Word) (v : Byte) :
    (s.write a v).x = s.x := rfl
@[simp] theorem State.write_y (s : State) (a : Word) (v : Byte) :
    (s.write a v).y = s.y := rfl
@[simp] theorem State.write_sp (s : State) (a : Word) (v : Byte) :
    (s.write a v).sp = s.sp := rfl
@[simp] theorem State.write_pc (s : State) (a : Word) (v : Byte) :
    (s.write a v).pc = s.pc := rfl
@[simp] theorem State.write_flags (s : State) (a : Word) (v : Byte) :
    (s.write a v).flags = s.flags := rfl
@[simp] theorem State.write_mem (s : State) (a : Word) (v : Byte) :
    (s.write a v).mem = Memory.write s.mem a v := rfl
@[simp] theorem State.write_log (s : State) (a : Word) (v : Byte) :
    (s.write a v).log = s.log := rfl
@[simp] theorem State.write_remaining (s : State) (a : Word) (v : Byte) :
    (s.write a v).remaining = s.remaining := rfl
@[simp] theorem State.write_cost (s : State) (a : Word) (v : Byte) :
    (s.write a v).cost = s.cost := rfl
@[simp] theorem State.write_config (s : State) (a : Word) (v : Byte) :
    (s.write a v).config = s.config := rfl

@[simp] theorem State.spend_a (s : State) (n : Int) :
    (s.spend n).a = s.a := rfl
@[simp] theorem State.spend_x (s : State) (n : Int) :
    (s.spend n).x = s.x := rfl
@[simp] theorem State.spend_y (s : State) (n : Int) :
    (s.spend n).y = s.y := rfl
@[simp] theorem State.spend_sp (s : State) (n : Int) :
    (s.spend n).sp = s.sp := rfl
@[simp] theorem State.spend_pc (s : State) (n : Int) :
    (s.spend n).pc = s.pc := rfl
@[simp] theorem State.spend_flags (s : State) (n : Int) :
    (s.spend n).flags = s.flags := rfl
@[simp] theorem State.spend_mem (s : State) (n : Int) :
    (s.spend n).mem = s.mem := rfl
@[simp] theorem State.spend_log (s : State) (n : Int) :
    (s.spend n).log = s.log := rfl
@[simp] theorem State.spend_remaining (s : State) (n : Int) :
    (s.spend n).remaining = s.remaining := rfl
@[simp] theorem State.spend_cost (s : State) (n : Int) :
    (s.spend n).cost = s.cost + n := rfl
@[simp] theorem State.spend_config (s : State) (n : Int) :
    (s.spend n).config = s.config := rfl

@[simp] theorem State.emit_a (s : State) (e : Event) :
    (s.emit e).a = s.a := rfl
@[simp] theorem State.emit_x (s : State) (e : Event) :
    (s.emit e).x = s.x := rfl
@[simp] theorem State.emit_y (s : State) (e : Event) :
    (s.emit e).y = s.y := rfl
@[simp] theorem State.emit_sp (s : State) (e : Event) :
    (s.emit e).sp = s.sp := rfl
@[simp] theorem State.emit_pc (s : State) (e : Event) :
    (s.emit e).pc = s.pc := rfl
@[simp] theorem State.emit_flags (s : State) (e : Event) :
    (s.emit e).flags = s.flags := rfl
@[simp] theorem State.emit_mem (s : State) (e : Event) :
    (s.emit e).mem = s.mem := rfl
@[simp] theorem State.emit_log (s : State) (e : Event) :
    (s.emit e).log = s.log ++ [e] := rfl
@[simp] theorem State.emit_remaining (s : State) (e : Event) :
    (s.emit e).remaining = s.remaining := rfl
@[simp] theorem State.emit_cost (s : State) (e : Event) :
    (s.emit e).cost = s.cost := rfl
@[simp] theorem State.emit_config (s : State) (e : Event) :
    (s.emit e).config = s.config := rfl

@[simp] theorem State.pushWord_a (s : State) (w : Word) :
    (s.pushWord w).a = s.a := rfl
@[simp] theorem State.pushWord_x (s : State) (w : Word) :
    (s.pushWord w).x = s.x := rfl
@[simp] theorem State.pushWord_y (s : State) (w : Word) :
    (s.pushWord w).y = s.y := rfl
@[simp] theorem State.pushWord_sp (s : State) (w : Word) :
    (s.pushWord w).sp = s.sp + 2 := rfl
@[simp] theorem State.pushWord_pc (s : State) (w : Word) :
    (s.pushWord w).pc = s.pc := rfl
@[simp] theorem State.pushWord_flags (s : State) (w : Word) :
    (s.pushWord w).flags = s.flags := rfl
@[simp] theorem State.pushWord_mem (s : State) (w : Word) :
    (s.pushWord w).mem = Memory.write (Memory.write s.mem (stackAddr s.sp 0) (loByte w))
      (stackAddr s.sp 1) (hiByte w) := rfl
@[simp] theorem State.pushWord_log (s : State) (w : Word) :
    (s.pushWord w).log = s.log := rfl
@[simp] theorem State.pushWord_remaining (s : State) (w : Word) :
    (s.pushWord w).remaining = s.remaining := rfl
@[simp] theorem State.pushWord_cost (s : State) (w : Word) :
    (s.pushWord w).cost = s.cost := rfl
@[simp] theorem State.pushWord_config (s : State) (w : Word) :
    (s.pushWord w).config = s.config := rfl

@[simp] theorem State.passInstr_a (s : State) (f : Format) (p : Int) :
    (s.passInstr f p).a = s.a := rfl
@[simp] theorem State.passInstr_x (s : State) (f : Format) (p : Int) :
    (s.passInstr f p).x = s.x := rfl
@[simp] theorem State.passInstr_y (s : State) (f : Format) (p : Int) :
    (s.passInstr f p).y = s.y := rfl
@[simp] theorem State.passInstr_sp (s : State) (f : Format) (p : Int) :
    (s.passInstr f p).sp = s.sp := rfl
@[simp] theorem State.passInstr_pc (s : State) (f : Format) (p : Int) :
    (s.passInstr f p).pc = s.pc + BitVec.ofNat 16 f.length := rfl
@[simp] theorem State.passInstr_flags (s : State) (f : Format) (p : Int) :
    (s.passInstr f p).flags = s.flags := rfl
@[simp] theorem State.passInstr_mem (s : State) (f : Format) (p : Int) :
    (s.passInstr f p).mem = s.mem := rfl
@[simp] theorem State.passInstr_log (s : State) (f : Format) (p : Int) :
    (s.passInstr f p).log = s.log := rfl
@[simp] theorem State.passInstr_remaining (s : State) (f : Format) (p : Int) :
    (s.passInstr f p).remaining = s.remaining := rfl
@[simp] theorem State.passInstr_cost (s : State) (f : Format) (p : Int) :
    (s.passInstr f p).cost = 1 + modeCost f + p + opCost f := rfl
@[simp] theorem State.passInstr_config (s : State) (f : Format) (p : Int) :
    (s.passInstr f p).config = s.config := rfl

@[simp] theorem State.loadA_a (s : State) (f : Format) (p : Int) (o : Operand) :
    (s.loadA f p o).a = s.operandValue o := rfl
@[simp] theorem State.loadA_x (s : State) (f : Format) (p : Int) (o : Operand) :
    (s.loadA f p o).x = s.x := rfl
@[simp] theorem State.loadA_y (s : State) (f : Format) (p : Int) (o : Operand) :
    (s.loadA f p o).y = s.y := rfl
@[simp] theorem State.loadA_sp (s : State) (f : Format) (p : Int) (o : Operand) :
    (s.loadA f p o).sp = s.sp := rfl
@[simp] theorem State.loadA_pc (s : State) (f : Format) (p : Int) (o : Operand) :
    (s.loadA f p o).pc = s.pc + BitVec.ofNat 16 f.length := rfl
@[simp] theorem State.loadA_flags (s : State) (f : Format) (p : Int) (o : Operand) :
    (s.loadA f p o).flags = loadFlags s.flags (s.operandValue o) := rfl
@[simp] theorem State.loadA_mem (s : State) (f : Format) (p : Int) (o : Operand) :
    (s.loadA f p o).mem = s.mem := rfl
@[simp] theorem State.loadA_log (s : State) (f : Format) (p : Int) (o : Operand) :
    (s.loadA f p o).log = s.log := rfl
@[simp] theorem State.loadA_remaining (s : State) (f : Format) (p : Int) (o : Operand) :
    (s.loadA f p o).remaining = s.remaining := rfl
@[simp] theorem State.loadA_cost (s : State) (f : Format) (p : Int) (o : Operand) :
    (s.loadA f p o).cost = 1 + modeCost f + p + opCost f := rfl
@[simp] theorem State.loadA_config (s : State) (f : Format) (p : Int) (o : Operand) :
    (s.loadA f p o).config = s.config := rfl

@[simp] theorem State.retire_a (s : State) :
    (s.retire).a = s.a := rfl
@[simp] theorem State.retire_x (s : State) :
    (s.retire).x = s.x := rfl
@[simp] theorem State.retire_y (s : State) :
    (s.retire).y = s.y := rfl
@[simp] theorem State.retire_sp (s : State) :
    (s.retire).sp = s.sp := rfl
@[simp] theorem State.retire_pc (s : State) :
    (s.retire).pc = s.pc := rfl
@[simp] theorem State.retire_flags (s : State) :
    (s.retire).flags = s.flags := rfl
@[simp] theorem State.retire_mem (s : State) :
    (s.retire).mem = s.mem := rfl
@[simp] theorem State.retire_log (s : State) :
    (s.retire).log = s.log := rfl
@[simp] theorem State.retire_remaining (s : State) :
    (s.retire).remaining = s.remaining - s.cost := rfl
@[simp] theorem State.retire_cost (s : State) :
    (s.retire).cost = s.cost := rfl
@[simp] theorem State.retire_config (s : State) :
    (s.retire).config = s.config := rfl

@[simp] theorem State.closeRun_a (s : State) :
    (s.closeRun).a = s.a := rfl
@[simp] theorem State.closeRun_x (s : State) :
    (s.closeRun).x = s.x := rfl
@[simp] theorem State.closeRun_y (s : State) :
    (s.closeRun).y = s.y := rfl
@[simp] theorem State.closeRun_sp (s : State) :
    (s.closeRun).sp = s.sp := rfl
@[simp] theorem State.closeRun_pc (s : State) :
    (s.closeRun).pc = s.pc := rfl
@[simp] theorem State.closeRun_flags (s : State) :
    (s.closeRun).flags = s.flags := rfl
@[simp] theorem State.closeRun_mem (s : State) :
    (s.closeRun).mem = s.mem := rfl
@[simp] theorem State.closeRun_log (s : State) :
    (s.closeRun).log = s.log := rfl
@[simp] theorem State.closeRun_remaining (s : State) :
    (s.closeRun).remaining = 0 := rfl
@[simp] theorem State.closeRun_cost (s : State) :
    (s.closeRun).cost = 0 := rfl
@[simp] theorem State.closeRun_config (s : State) :
    (s.closeRun).config = s.config := rfl

@[simp] theorem State.processorReset_a (s : State) :
    (s.processorReset).a = 0x00 := rfl
@[simp] theorem State.processorReset_x (s : State) :
    (s.processorReset).x = 0x00 := rfl
@[simp] theorem State.processorReset_y (s : State) :
    (s.processorReset).y = 0x00 := rfl
@[simp] theorem State.processorReset_sp (s : State) :
    (s.processorReset).sp = s.config.resetSp := rfl
@[simp] theorem State.processorReset_pc (s : State) :
    (s.processorReset).pc = s.config.resetPc := rfl
@[simp] theorem State.processorReset_flags (s : State) :
    (s.processorReset).flags = Flags.allClear := rfl
@[simp] theorem State.processorReset_mem (s : State) :
    (s.processorReset).mem = s.mem := rfl
@[simp] theorem State.processorReset_log (s : State) :
    (s.processorReset).log = [] := rfl
@[simp] theorem State.processorReset_remaining (s : State) :
    (s.processorReset).remaining = s.remaining := rfl
@[simp] theorem State.processorReset_cost (s : State) :
    (s.processorReset).cost = s.cost := rfl
@[simp] theorem State.processorReset_config (s : State) :
    (s.processorReset).config = s.config := rfl

@[simp] theorem State.memoryReset_a (s : State) :
    (s.memoryReset).a = s.a := rfl
@[simp] theorem State.memoryReset_x (s : State) :
    (s.memoryReset).x = s.x := rfl
@[simp] theorem State.memoryReset_y (s : State) :
    (s.memoryReset).y = s.y := rfl
@[simp] theorem State.memoryReset_sp (s : State) :
    (s.memoryReset).sp = s.sp := rfl
@[simp] theorem State.memoryReset_pc (s : State) :
    (s.memoryReset).pc = s.pc := rfl
@[simp] theorem State.memoryReset_flags (s : State) :
    (s.memoryReset).flags = s.flags := rfl
@[simp] theorem State.memoryReset_mem (s : State) :
    (s.memoryReset).mem = [] := rfl
@[simp] theorem State.memoryReset_log (s : State) :
    (s.memoryReset).log = s.log := rfl
@[simp] theorem State.memoryReset_remaining (s : State) :
    (s.memoryReset).remaining = s.remaining := rfl
@[simp] theorem State.memoryReset_cost (s : State) :
    (s.memoryReset).cost = s.cost := rfl
@[simp] theorem State.memoryReset_config (s : State) :
    (s.memoryReset).config = s.config := rfl

@[simp] theorem State.withFetchWord_a (s : State) (nbits w : Nat) :
    (s.withFetchWord nbits w).a = s.a := rfl
@[simp] theorem State.withFetchWord_x (s : State) (nbits w : Nat) :
    (s.withFetchWord nbits w).x = s.x := rfl
@[simp] theorem State.withFetchWord_y (s : State) (nbits w : Nat) :
    (s.withFetchWord nbits w).y = s.y := rfl
@[simp] theorem State.withFetchWord_sp (s : State) (nbits w : Nat) :
    (s.withFetchWord nbits w).sp = s.sp := rfl
@[simp] theorem State.withFetchWord_pc (s : State) (nbits w : Nat) :
    (s.withFetchWord nbits w).pc = s.pc := rfl
@[simp] theorem State.withFetchWord_flags (s : State) (nbits w : Nat) :
    (s.withFetchWord nbits w).flags = s.flags := rfl
@[simp] theorem State.withFetchWord_mem (s : State) (nbits w : Nat) :
    (s.withFetchWord nbits w).mem = Memory.writeBytes s.mem s.pc (tableBytes nbits w) := rfl
@[simp] theorem State.withFetchWord_log (s : State) (nbits w : Nat) :
    (s.withFetchWord nbits w).log = s.log := rfl
@[simp] theorem State.withFetchWord_remaining (s : State) (nbits w : Nat) :
    (s.withFetchWord nbits w).remaining = s.remaining := rfl
@[simp] theorem State.withFetchWord_cost (s : State) (nbits w : Nat) :
    (s.withFetchWord nbits w).cost = s.cost := rfl
@[simp] theorem State.withFetchWord_config (s : State) (nbits w : Nat) :
    (s.withFetchWord nbits w).config = s.config := rfl

@[simp] theorem State.openRun_a (s : State) :
    s.openRun.a = s.a := by
  unfold State.openRun; split <;> rfl
@[simp] theorem State.openRun_x (s : State) :
    s.openRun.x = s.x := by
  unfold State.openRun; split <;> rfl
@[simp] theorem State.openRun_y (s : State) :
    s.openRun.y = s.y := by
  unfold State.openRun; split <;> rfl
@[simp] theorem State.openRun_sp (s : State) :
    s.openRun.sp = s.sp := by
  unfold State.openRun; split <;> rfl
@[simp] theorem State.openRun_pc (s : State) :
    s.openRun.pc = s.pc := by
  unfold State.openRun; split <;> rfl
@[simp] theorem State.openRun_flags (s : State) :
    s.openRun.flags = s.flags := by
  unfold State.openRun; split <;> rfl
@[simp] theorem State.openRun_mem (s : State) :
    s.openRun.mem = s.mem := by
  unfold State.openRun; split <;> rfl
@[simp] theorem State.openRun_log (s : State) :
    s.openRun.log = s.log := by
  unfold State.openRun; split <;> rfl
@[simp] theorem State.openRun_remaining (s : State) :
    s.openRun.remaining = if 0 < s.remaining then s.remaining else 1 := by
  unfold State.openRun; split <;> rfl
@[simp] theorem State.openRun_cost (s : State) :
    s.openRun.cost = s.cost := by
  unfold State.openRun; split <;> rfl
@[simp] theorem State.openRun_config (s : State) :
    s.openRun.config = s.config := by
  unfold State.openRun; split <;> rfl

/-- A run in progress is left as it is. -/
theorem State.openRun_of_running {s : State} (h : 0 < s.remaining) : s.openRun = s := if_pos h

/-- An idle core starts `Run(1)`. -/
theorem State.openRun_of_idle {s : State} (h : ¬ 0 < s.remaining) :
    s.openRun = { s with remaining := 1 } := if_neg h

theorem State.openRun_running (s : State) : 0 < s.openRun.remaining := by
  rw [State.openRun_remaining]; split <;> omega

@[simp] theorem Memory.read_of_state (s : State) (a : Word) : s.read a = Memory.read s.mem a := rfl

@[simp] theorem Flags.loadFlags_z (f : Flags) (v : Byte) : (loadFlags f v).z = (v == 0x00) := rfl
@[simp] theorem Flags.loadFlags_n (f : Flags) (v : Byte) : (loadFlags f v).n = v.getLsbD 7 := rfl
@[simp] theorem Flags.loadFlags_c (f : Flags) (v : Byte) : (loadFlags f v).c = f.c := rfl
@[simp] theorem Flags.loadFlags_i (f : Flags) (v : Byte) : (loadFlags f v).i = f.i := rfl
@[simp] theorem Flags.loadFlags_d (f : Flags) (v : Byte) : (loadFlags f v).d = f.d := rfl
@[simp] theorem Flags.loadFlags_b (f : Flags) (v : Byte) : (loadFlags f v).b = f.b := rfl
@[simp] theorem Flags.loadFlags_v (f : Flags) (v : Byte) : (loadFlags f v).v = f.v := rfl

@[simp] theorem mapNext_next {σ τ : Type} (f : σ → τ) (s : σ) :
    mapNext f (.next s) = .next (f s) := rfl

@[simp] theorem bindNext_next {σ τ : Type} (s : σ) (f : σ → Host.Outcome τ Fault Refusal) :
    bindNext (.next s) f = f s := rfl

/-- Where a mapped outcome is a next state, so was the outcome. -/
theorem mapNext_eq_next {σ τ : Type} {f : σ → τ} {o : Host.Outcome σ Fault Refusal} {t : τ} :
    mapNext f o = .next t ↔ ∃ s, o = .next s ∧ f s = t := by
  cases o <;> simp [mapNext]

/-- Where a chain of outcomes is a next state, so was its first. -/
theorem bindNext_eq_next {σ τ : Type} {o : Host.Outcome σ Fault Refusal}
    {f : σ → Host.Outcome τ Fault Refusal} {t : τ} :
    bindNext o f = .next t ↔ ∃ s, o = .next s ∧ f s = .next t := by
  cases o <;> simp [bindNext]

end Sys2Proof.Machine
end

