-- ==== Sys2Proof/Laws/Exec.lean ====
section
/-! SUPPORT. What an instruction can do, said once: every meaning is a load, a call or a logged
event. -/

namespace Sys2Proof.Machine

/-- The bytes of memory after a word is pushed: the two stack bytes hold it, all others
are as before (R140, R141). -/
theorem State.read_pushWord (s : State) (w : Word) (b : Word) :
    Memory.read (s.pushWord w).mem b =
      if b = stackAddr s.sp 1 then hiByte w
      else if b = stackAddr s.sp 0 then loByte w
      else Memory.read s.mem b := by
  simp [Memory.read_write]

/-- The cases of a penalty (R108). -/
theorem State.penalty_cases (s : State) (base : Word) (idx : Byte) :
    s.penalty base idx = 0 ∨ s.penalty base idx = 1 := by
  unfold State.penalty; split <;> simp

/-- What any instruction does. A load is a `loadA` of its own format with penalty 0 or 1; a call
pushes the address of its last byte; an undefined byte is logged. -/
theorem exec_cases (i : Instr) (s : State) :
    (i.isLoad = true ∧ ∃ p o, (p = 0 ∨ p = 1) ∧ exec i s = .next (s.loadA i.format p o)) ∨
    (∃ target, i = .jsrAbs target ∧
      exec i s = .next { (s.passInstr .jabs 0).pushWord (s.pc + 3 - 1) with pc := target }) ∨
    (∃ opcode, i = .unknown opcode ∧
      exec i s = .next ((s.passInstr .op 0).emit (.unknownOpcode opcode s.pc))) := by
  cases i with
  | ldaImm v => exact .inl ⟨rfl, 0, _, .inl rfl, rfl⟩
  | ldaZp z => exact .inl ⟨rfl, 0, _, .inl rfl, rfl⟩
  | ldaZpX z => exact .inl ⟨rfl, 0, _, .inl rfl, rfl⟩
  | ldaAbs w => exact .inl ⟨rfl, 0, _, .inl rfl, rfl⟩
  | ldaAbsX w => exact .inl ⟨rfl, _, _, s.penalty_cases w s.x, rfl⟩
  | ldaAbsY w => exact .inl ⟨rfl, _, _, s.penalty_cases w s.y, rfl⟩
  | ldaIndX z => exact .inl ⟨rfl, 0, _, .inl rfl, rfl⟩
  | ldaIndY z => exact .inl ⟨rfl, _, _, s.penalty_cases (s.zpPointer z) s.y, rfl⟩
  | jsrAbs target => exact .inr (.inl ⟨target, rfl, rfl⟩)
  | unknown opcode => exact .inr (.inr ⟨opcode, rfl, rfl⟩)

/-- Where a step goes on, it ran the instruction its bytes decode to and charged its cost. -/
theorem step_eq_next {s t : State} :
    step s = .next t ↔ ∃ i rest u, decode s.fetchWindow = .ok (i, rest) ∧
      exec i s.openRun = .next u ∧ t = u.retire := by
  unfold step
  split <;> rename_i h
  · rw [mapNext_eq_next, h]
    grind
  · simp [h]

end Sys2Proof.Machine
end

