-- ==== Sys2Proof/Laws/PerInstr.lean ====
section
/-! SUPPORT. Facts of every instruction as syntax, one lemma per constructor. -/

namespace Sys2Proof.Laws.EncodedShape

/-- An instruction's bytes are as many as its format says, and its first byte selects that
format, or nothing for the format of an undefined byte (R60, R61, R64). -/
def Statement (i : Instr) : Prop :=
  (encode i).length = i.format.length ∧
    (i.format ≠ .op → ((encode i).head?.bind lookupOpcode).map (·.format) = some i.format)

theorem ldaImm (imm8 : Byte) : Statement (.ldaImm imm8) := ⟨rfl, fun _ => rfl⟩
theorem ldaZp (zp8 : Byte) : Statement (.ldaZp zp8) := ⟨rfl, fun _ => rfl⟩
theorem ldaZpX (zp8 : Byte) : Statement (.ldaZpX zp8) := ⟨rfl, fun _ => rfl⟩
theorem ldaAbs (addr : Word) : Statement (.ldaAbs addr) := ⟨rfl, fun _ => rfl⟩
theorem ldaAbsX (base : Word) : Statement (.ldaAbsX base) := ⟨rfl, fun _ => rfl⟩
theorem ldaAbsY (base : Word) : Statement (.ldaAbsY base) := ⟨rfl, fun _ => rfl⟩
theorem ldaIndX (zp8 : Byte) : Statement (.ldaIndX zp8) := ⟨rfl, fun _ => rfl⟩
theorem ldaIndY (zp8 : Byte) : Statement (.ldaIndY zp8) := ⟨rfl, fun _ => rfl⟩
theorem jsrAbs (target : Word) : Statement (.jsrAbs target) := ⟨rfl, fun _ => rfl⟩
theorem unknown (opcode : Byte) : Statement (.unknown opcode) :=
  ⟨rfl, fun h => absurd rfl h⟩

end Sys2Proof.Laws.EncodedShape
end

