-- ==== Sys2Proof/Tests/Slice0.lean ====
section
/-! SUPPORT. Tests: the checks of WellFormed refuse ill-formed terms; words written out from the
encodings of 30_encoding.md R64 and R68; the worked vectors of 95_test_vectors.md (the vector's id
stands in each comment); and, for each statement with hypotheses, values that meet them. -/

namespace Sys2Proof.Tests.Slice0

open Sys2Proof Sys2Proof.Machine

/-! ## Helpers -/

/-- Reset, with bytes at an address and PC there. -/
def at' (pc : Word) (bytes : List Byte) : State :=
  { State.reset with pc := pc, mem := Memory.writeBytes [] pc bytes }

/-- The same state with one more byte of memory. -/
def poke (s : State) (a : Word) (v : Byte) : State := s.write a v

/-- A check of the state one step later. -/
def afterStep (s : State) (p : State → Bool) : Bool :=
  match step s with
  | .next t => p t
  | .fault _ => false
  | .refused _ => false

/-- A check of the state after a run and of what it returns. -/
def afterRun (n : Int) (s : State) (p : State → Int → Bool) : Bool :=
  match run n s with
  | .next (t, k) => p t k
  | .fault _ => false
  | .refused _ => false

/-- A check that a host operation is refused for its address. -/
def refusedAddress (q : HostRequest) (s : State) (address : Int) : Bool :=
  match hostAct q s with
  | .refused (.addressOutOfRange a) => a == address
  | _ => false

/-! ## WellFormed -/

/-- A defined byte is no undefined opcode (R66). -/
theorem test_wellFormed_refuses_defined_byte : (Instr.unknown 0xA9).wellFormed = false := by decide
theorem test_wellFormed_refuses_jsr_byte : (Instr.unknown 0x20).wellFormed = false := by decide
theorem test_wellFormed_takes_undefined_byte : (Instr.unknown 0xEA).wellFormed = true := by decide

/-! ## Decoding and encoding: R64's bytes, R68's examples -/

theorem test_decode_ldaImm : decode [0b10101001, 0x84] = .ok (.ldaImm 0x84, []) := by decide
theorem test_decode_ldaZp : decode [0b10100101, 0x80] = .ok (.ldaZp 0x80, []) := by decide
theorem test_decode_ldaZpX : decode [0b10110101, 0x80] = .ok (.ldaZpX 0x80, []) := by decide
theorem test_decode_ldaAbs : decode [0b10101101, 0x02, 0x44] = .ok (.ldaAbs 0x4402, []) := by decide
theorem test_decode_ldaAbsX : decode [0b10111101, 0x02, 0x44] = .ok (.ldaAbsX 0x4402, []) := by decide
theorem test_decode_ldaAbsY : decode [0b10111001, 0x02, 0x44] = .ok (.ldaAbsY 0x4402, []) := by decide
theorem test_decode_ldaIndX : decode [0b10100001, 0x02] = .ok (.ldaIndX 0x02, []) := by decide
theorem test_decode_ldaIndY : decode [0b10110001, 0x02] = .ok (.ldaIndY 0x02, []) := by decide
theorem test_decode_jsrAbs : decode [0b00100000, 0x34, 0x12] = .ok (.jsrAbs 0x1234, []) := by decide
theorem test_decode_unknown_takes_one_byte : decode [0xB6, 0x10] = .ok (.unknown 0xB6, [0x10]) := by
  decide
theorem test_decode_refuses_nothing : decode [] = .error .noOpcode := by decide
theorem test_decode_refuses_cut_operand : decode [0xAD, 0x02] = .error (.missingOperand 0xAD) := by
  decide
theorem test_encode_jsrAbs : encode (.jsrAbs 0x1234) = [0x20, 0x34, 0x12] := by decide
theorem test_decodeTableWord : decodeTableWord 24 0x4402BD = some (.ldaAbsX 0x4402) := by decide
theorem test_decodeTableWord_short : decodeTableWord 8 0x44A9 = some (.ldaImm 0x00) := by decide
theorem test_table_has_nine_entries : opcodeTable.length = 9 ∧
    opcodeTable.Pairwise (fun e f => e.opcode ≠ f.opcode) := by decide

/-! ## Vectors of 95_test_vectors.md -/

/-- L1-2 case b: the five other flags stay set, Z goes. -/
theorem test_ldaImm_flags :
    afterStep { at' 0xFFFC [0xA9, 0x84] with flags := ⟨true, true, true, true, true, true, false⟩ }
      (fun t => t.a == 0x84 && t.flags == ⟨true, false, true, true, true, true, true⟩
        && t.pc == 0xFFFE && t.cost == 2) = true := by decide

/-- L1-3: zero after a nonzero accumulator. -/
theorem test_ldaImm_zero :
    afterStep { at' 0xFFFC [0xA9, 0x00] with a := 0x55 }
      (fun t => t.a == 0x00 && t.flags.z && !t.flags.n) = true := by decide

/-- L2-M1: the last byte of the zero page, 3 cycles (C1). -/
theorem test_ldaZp_top :
    afterStep (poke (at' 0xFFFC [0xA5, 0xFF]) 0x00FF 0x42)
      (fun t => t.a == 0x42 && t.cost == 3 && t.pc == 0xFFFE) = true := by decide

/-- L1-4: the sum wraps to 0x7F, not 0x17F. -/
theorem test_ldaZpX_wraps :
    afterStep { poke (poke (at' 0xFFFC [0xB5, 0x80]) 0x007F 0x11) 0x017F 0x22 with x := 0xFF }
      (fun t => t.a == 0x11 && t.cost == 4) = true := by decide

/-- P2 step 2: the operand bytes are at 0xFFFF and 0x0000. -/
theorem test_ldaAbs_straddles_top :
    afterStep (poke (at' 0xFFFE [0xAD, 0x34, 0x12]) 0x1234 0xC3)
      (fun t => t.a == 0xC3 && t.pc == 0x0001 && t.cost == 4 && t.flags.n) = true := by decide

/-- L1-5 case a: a crossing costs 5. -/
theorem test_ldaAbsX_crossing :
    afterStep { poke (at' 0xFFFC [0xBD, 0x02, 0x44]) 0x4501 0x9A with x := 0xFF }
      (fun t => t.a == 0x9A && t.cost == 5) = true := by decide

/-- L2-P5: under `literal` an index of 0xFF on a page's first byte costs the penalty too. -/
theorem test_ldaAbsX_literal :
    afterStep
      { at' 0xFFFC [0xBD, 0x00, 0x44] with
        x := 0xFF, config := { Config.thisHardware with pageCrossRule := .literal } }
      (fun t => t.cost == 5) = true := by decide

/-- L2-M8: Y, not X. -/
theorem test_ldaAbsY_uses_y :
    afterStep
      { poke (poke (at' 0xFFFC [0xB9, 0x00, 0x44]) 0x4404 0x01) 0x4409 0x02 with
        y := 0x04, x := 0x09 }
      (fun t => t.a == 0x01 && t.cost == 4) = true := by decide

/-- L2-P9: the sum wraps at 65536, which is a crossing under `canonical`. -/
theorem test_ldaAbsY_wraps :
    afterStep { poke (at' 0xFFFC [0xB9, 0xFF, 0xFF]) 0x0000 0x3C with y := 0x01 }
      (fun t => t.a == 0x3C && t.cost == 5) = true := by decide

/-- L1-6. -/
theorem test_ldaIndX :
    afterStep
      { poke (poke (at' 0xFFFC [0xA1, 0x02]) 0x0007 0x80) 0x8000 0x37 with x := 0x04 }
      (fun t => t.a == 0x37 && t.cost == 6) = true := by decide

/-- L2-M9: the pointer at 0xFF takes its high byte from 0x0000 (D6). -/
theorem test_ldaIndX_pointer_wraps :
    afterStep
      { poke (poke (poke (at' 0xFFFC [0xA1, 0xFE]) 0x0000 0x30) 0x0100 0x99) 0x3000 0x5A with
        x := 0x01 }
      (fun t => t.a == 0x5A) = true := by decide

/-- L1-7: a crossing costs 6. -/
theorem test_ldaIndY_crossing :
    afterStep
      { poke (poke (poke (at' 0xFFFC [0xB1, 0x10]) 0x0010 0x02) 0x0011 0x80) 0x8101 0xC4 with
        y := 0xFF }
      (fun t => t.a == 0xC4 && t.cost == 6 && t.flags.n) = true := by decide

/-- L2-M12: without a crossing, 5. -/
theorem test_ldaIndY :
    afterStep { poke (poke (at' 0xFFFC [0xB1, 0x10]) 0x0011 0x30) 0x3005 0x81 with y := 0x05 }
      (fun t => t.a == 0x81 && t.cost == 5) = true := by decide

/-- L2-J4: the second stack byte wraps inside page 1 (D4). -/
theorem test_jsrAbs_stack_wraps :
    afterStep { at' 0x0300 [0x20, 0x34, 0x12] with sp := 0xFF }
      (fun t => t.pc == 0x1234 && t.sp == 0x01 && t.read 0x01FF == 0x02 && t.read 0x0100 == 0x03
        && t.read 0x0200 == 0x00 && t.cost == 6) = true := by decide

/-- L2-J7: the target is fetched before the return address is written over it. -/
theorem test_jsrAbs_target_first :
    afterStep (at' 0x00FF [0x20, 0x00, 0x05])
      (fun t => t.pc == 0x0500 && t.read 0x0100 == 0x01 && t.read 0x0101 == 0x01 && t.sp == 0x02)
      = true := by decide

/-- L2-U2: 0x60 is no return here. -/
theorem test_unknown_0x60 :
    afterStep (at' 0x0400 [0x60])
      (fun t => t.pc == 0x0401 && t.sp == 0x00 && t.cost == 1
        && t.log == [.unknownOpcode 0x60 0x0400]) = true := by decide

/-- L2-U7: PC wraps after the top byte. -/
theorem test_unknown_at_top :
    afterStep (at' 0xFFFF [0x02]) (fun t => t.pc == 0x0000) = true := by decide

/-- L2-E4: a run of budget 1 overruns by 5. -/
theorem test_run_overruns :
    afterRun 1 (at' 0xFFFC [0x20, 0x42, 0x42]) (fun t k => k == 6 && t.pc == 0x4242) = true := by
  decide

/-- L2-E9: the last instruction begins with 1 cycle left. -/
theorem test_run_program_p1 :
    afterRun 7 (poke (poke (at' 0xFFFC [0x20, 0x42, 0x42]) 0x4242 0xA9) 0x4243 0x84)
      (fun t k => k == 8 && t.pc == 0x4244 && t.a == 0x84 && t.sp == 0x02) = true := by decide

/-- L2-H2: an address outside the address space is refused. -/
theorem test_host_refuses_address :
    refusedAddress (.writeByte 0x10000 0x01) State.reset 0x10000 = true := by decide

/-- The word is placed where the next step fetches, from reset. -/
theorem test_withFetchWord :
    afterStep (State.reset.withFetchWord 24 0x424220)
      (fun t => t.pc == 0x4242 && t.read 0x0100 == 0xFE && t.read 0x0101 == 0xFF) = true := by decide

/-! ## Values that meet the hypotheses of the statements -/

/-- A state in which a run is in progress, PC at `LDA #$84`. -/
def running : State := { at' 0xFFFC [0xA9, 0x84] with remaining := 3 }

/-- The same program, no run in progress. -/
def idle : State := at' 0xFFFC [0xA9, 0x84]

theorem witness_LoadFrame :
    ∃ t, (Instr.ldaAbsX 0x44FF).isLoad = true ∧ exec (.ldaAbsX 0x44FF) idle = .next t :=
  ⟨_, rfl, rfl⟩

theorem witness_LoadsAloneSetAccumulator_load :
    ∃ t, exec (.ldaImm 0x00) idle = .next t ∧ (Instr.ldaImm 0x00).isLoad = true := ⟨_, rfl, rfl⟩

theorem witness_LoadsAloneSetAccumulator_other :
    ∃ t, exec (.jsrAbs 0x4242) idle = .next t ∧ (Instr.jsrAbs 0x4242).isLoad = false := ⟨_, rfl, rfl⟩

theorem witness_PageCrossRules : (0x4501 : Word) = BitVec.ofNat 16 ((0x4402 : Word).toNat + (0xFF : Byte).toNat) := by
  decide

/-- L2-P5. -/
theorem witness_PageCrossRules_literalOnly :
    (0x44FF : Word) = BitVec.ofNat 16 ((0x4400 : Word).toNat + (0xFF : Byte).toNat) ∧
      (0x4400 : Word).toNat % 256 = 0 := by decide

/-- L2-P6. -/
theorem witness_PageCrossRules_carry :
    (0x4500 : Word) = BitVec.ofNat 16 ((0x44FF : Word).toNat + (0x01 : Byte).toNat) ∧
      (0x01 : Byte) ≠ 0xFF ∧ 0x100 ≤ (0x44FF : Word).toNat % 256 + (0x01 : Byte).toNat := by decide

/-- L2-P10. -/
theorem witness_PageCrossRules_wrap :
    (0x0000 : Word) = BitVec.ofNat 16 ((0xFF01 : Word).toNat + (0xFF : Byte).toNat) ∧
      0x10000 ≤ (0xFF01 : Word).toNat + (0xFF : Byte).toNat := by decide

theorem witness_ParametersChangeOnlyCost :
    ∃ t, exec (.ldaAbsY 0x44FF) { idle with y := 0xFF } = .next t := ⟨_, rfl⟩

theorem witness_JumpToSubroutineResult :
    Memory.read (at' 0x00FF [0x20, 0x00, 0x05]).mem (at' 0x00FF [0x20, 0x00, 0x05]).pc = 0x20 := by
  decide

theorem witness_JumpToSubroutineFrame :
    ∃ t, exec (.jsrAbs 0x4242) { idle with sp := 0xFF } = .next t ∧
      (0x0101 : Word) ≠ stackAddr 0xFF 0 ∧ (0x0101 : Word) ≠ stackAddr 0xFF 1 :=
  ⟨_, rfl, by decide, by decide⟩

/-- A call to the stack byte below the page's wrap: SP is 0xFF, so the return address is at 0x01FF
and 0x0100. The clauses of FetchSeesCallWrites: the target's bytes lie on the low byte and on
neither, and those of a target at 0x00FF on neither and on the high byte. -/
theorem witness_FetchSeesCallWrites :
    (∃ t, exec (.jsrAbs 0x01FF) { idle with sp := 0xFF } = .next t) ∧
    (∃ t, exec (.jsrAbs 0x00FF) { idle with sp := 0xFF } = .next t) ∧
    (0x01FF : Word) + BitVec.ofNat 16 0 = stackAddr 0xFF 0 ∧
    (0x00FF : Word) + BitVec.ofNat 16 1 = stackAddr 0xFF 1 ∧
    (0x01FF : Word) + BitVec.ofNat 16 1 ≠ stackAddr 0xFF 0 ∧
    (0x01FF : Word) + BitVec.ofNat 16 1 ≠ stackAddr 0xFF 1 :=
  ⟨⟨_, rfl⟩, ⟨_, rfl⟩, by decide, by decide, by decide, by decide⟩

theorem witness_UnknownOpcodeResult : (0x00 : Byte) ∉ definedOpcodes := by decide

theorem witness_UnknownOpcodeFrame : ∃ t, exec (.unknown 0xEA) idle = .next t := ⟨_, rfl⟩

theorem witness_DecodeOfEncode :
    (Instr.unknown 0xFF).wellFormed = true ∧ (Instr.jsrAbs 0xFFFF).wellFormed = true := by decide

theorem witness_EncodeOfDecode : decode [0xBD, 0x02, 0x44, 0x60] = .ok (.ldaAbsX 0x4402, [0x60]) := by
  decide

theorem witness_TableBaseCosts :
    ∃ t, lookupOpcode 0xBD = some ⟨0xBD, .absx, 4, true⟩ ∧
      Format.absx = (Instr.ldaAbsX 0x44FF).format ∧
      exec (.ldaAbsX 0x44FF) { idle with x := 0x01 } = .next t := ⟨_, by decide, rfl, rfl⟩

theorem witness_StepRunsDecoded :
    decode [Memory.read idle.mem idle.pc, Memory.read idle.mem (idle.pc + 1),
      Memory.read idle.mem (idle.pc + 2)] = .ok (.ldaImm 0x84, [0x00]) := by decide

theorem witness_StepWriteMatrix_load :
    ∃ t, decode idle.fetchWindow = .ok (.ldaImm 0x84, [0x00]) ∧ step idle = .next t ∧
      (Instr.ldaImm 0x84).format ≠ .jabs ∧ (Instr.ldaImm 0x84).format ≠ .op :=
  ⟨_, by decide, rfl, by decide, by decide⟩

theorem witness_StepWriteMatrix_other :
    ∃ t, decode (at' 0xFFFF [0x02]).fetchWindow = .ok (.unknown 0x02, [0x00, 0x00]) ∧
      step (at' 0xFFFF [0x02]) = .next t ∧ (Instr.unknown 0x02).isLoad = false :=
  ⟨_, by decide, rfl, rfl⟩

theorem witness_ProgramCounterMoves_call :
    ∃ t, decode (at' 0xFFFE [0x20, 0x00, 0x60]).fetchWindow = .ok (.jsrAbs 0x6000, []) ∧
      step (at' 0xFFFE [0x20, 0x00, 0x60]) = .next t := ⟨_, by decide, rfl⟩

theorem witness_ProgramCounterMoves_wrap :
    ∃ t, decode (at' 0xFFFF [0xA9, 0x01]).fetchWindow = .ok (.ldaImm 0x01, [0x00]) ∧
      step (at' 0xFFFF [0xA9, 0x01]) = .next t ∧ (Instr.ldaImm 0x01).format ≠ .jabs :=
  ⟨_, by decide, rfl, by decide⟩

/-- The clauses of AccumulatorFlagsLogNeverRead: a load, a call and an undefined byte. -/
theorem witness_AccumulatorFlagsLogNeverRead :
    (∃ t, decode idle.fetchWindow = .ok (.ldaImm 0x84, [0x00]) ∧ step idle = .next t) ∧
    (∃ t, decode (at' 0xFFFE [0x20, 0x00, 0x60]).fetchWindow = .ok (.jsrAbs 0x6000, []) ∧
      step (at' 0xFFFE [0x20, 0x00, 0x60]) = .next t) ∧
    ∃ t, decode (at' 0xFFFF [0x02]).fetchWindow = .ok (.unknown 0x02, [0x00, 0x00]) ∧
      step (at' 0xFFFF [0x02]) = .next t :=
  ⟨⟨_, by decide, rfl⟩, ⟨_, by decide, rfl⟩, ⟨_, by decide, rfl⟩⟩

/-- For LogGrowsByUndefinedOpcodes and StepKeepsMemoryCanonical. -/
theorem witness_step_of_canonical_state : ∃ t, idle.memoryCanonical ∧ step idle = .next t :=
  ⟨_, Memory.wf_writeBytes Memory.wf_empty _ _, rfl⟩

theorem witness_HostKeepsMemoryCanonical :
    ∃ t r, idle.memoryCanonical ∧ hostAct (.writeByte 0xFFFF 0x01) idle = .next (t, r) :=
  ⟨_, _, Memory.wf_writeBytes Memory.wf_empty _ _, rfl⟩

theorem witness_EqualReadsEqualMemory :
    Memory.wf [(0, 0x01), (0xFFFF, 0x02)] ∧
      ∀ a, Memory.read [(0, 0x01), (0xFFFF, 0x02)] a = Memory.read [(0, 0x01), (0xFFFF, 0x02)] a :=
  ⟨by decide, fun _ => rfl⟩

theorem witness_StepKeepsFlagsDescribeA :
    ∃ t, ({ idle with flags := { idle.flags with z := true } } : State).flagsDescribeA ∧
      step { idle with flags := { idle.flags with z := true } } = .next t :=
  ⟨_, ⟨by decide, by decide⟩, rfl⟩

theorem witness_StepKeepsLogUndefinedOnly :
    ∃ t, ({ idle with log := [.unknownOpcode 0xEA 0x0400] } : State).logUndefinedOnly ∧
      step { idle with log := [.unknownOpcode 0xEA 0x0400] } = .next t := by
  refine ⟨_, fun opcode pc h => ?_, rfl⟩
  obtain ⟨rfl, rfl⟩ : opcode = 0xEA ∧ pc = 0x0400 := by simpa using h
  decide

/-- For StepSpendsBudget, NoHostOperationDuringRun and the clauses of BudgetTestedBeforeFetch. -/
theorem witness_running : 0 < running.remaining ∧ idle.remaining ≤ 0 := by decide

/-- For BudgetTestedBeforeFetch, at the edge of its range; RunTerminates and RunReturnsWithinFive hold
from the budget 1 on. -/
theorem witness_budgets : (0 : Int) ≤ 0 ∧ (-5 : Int) ≤ 0 ∧ (0 : Int) < 1 := by decide

theorem witness_RunsCompose :
    ∃ t u k j, (0 : Int) < 1 ∧ run 1 (at' 0xFFFC [0x20, 0x42, 0x42]) = .next (t, k) ∧
      run 1 t = .next (u, j) := ⟨_, _, _, _, by decide, rfl, rfl⟩

theorem witness_IdleStepIsRunOfOne : ∃ t, idle.remaining ≤ 0 ∧ step idle = .next t :=
  ⟨_, by decide, rfl⟩

/-- For the statements about host operations between runs, HostRunAnswersCycles among them; ResetResult also asks for this
hardware's parameters. -/
theorem witness_between_runs : idle.remaining ≤ 0 ∧ idle.config = Config.thisHardware := by decide

/-- HostWritesOneByte and HostReadsChangeNothing at the ends of the address space. -/
theorem witness_host_addresses :
    (0 ≤ (65535 : Int) ∧ (65535 : Int) ≤ 65535) ∧ ¬ (0 ≤ (65536 : Int) ∧ (65536 : Int) ≤ 65535) ∧
      ¬ (0 ≤ (-1 : Int) ∧ (-1 : Int) ≤ 65535) := by decide

theorem witness_ConstructNeedsWholeAddressSpace :
    (List.replicate 65536 (0x01 : Byte)).length = 65536 ∧ ([0x01] : List Byte).length ≠ 65536 :=
  ⟨List.length_replicate, by decide⟩

end Sys2Proof.Tests.Slice0
end

section
/-! SUPPORT. Noninterference of the parameters: an instruction consults them for its cycles only
(R10, R108). -/

namespace Sys2Proof.Machine

/-- Two loads of one operand, under different parameters and with different penalties, differ in
the parameters and the cost only. -/
theorem State.loadA_withConfig (s : State) (c : Config) (f : Format) (p q : Int) (o : Operand) :
    State.loadA { s with config := c } f q o =
      { s.loadA f p o with config := c, cost := 1 + modeCost f + q + opCost f } := by
  cases o with
  | imm v => rfl
  | addr ea => rfl

/-- Settles O13: the operand of a load does not depend on the parameters, so only its penalty can,
and neither the call nor the undefined byte consults them at all. -/
theorem parametersChangeOnlyCost : Obligations.ParametersChangeOnlyCost := by
  intro i s t c h
  cases i with
  | ldaImm | ldaZp | ldaZpX | ldaAbs | ldaAbsX | ldaAbsY | ldaIndX | ldaIndY =>
    cases h
    exact ⟨_, congrArg Host.Outcome.next (s.loadA_withConfig c _ _ _ _)⟩
  | jsrAbs | unknown =>
    cases h
    exact ⟨_, rfl⟩

end Sys2Proof.Machine
end

section
/-! SUPPORT. The spec's pseudocode (Machine/Engine.lean) against `exec`. The pseudocode of an
instruction starts once its opcode byte is fetched and paid for, in the state `s.passInstr .op 0`,
and each lemma says where it ends in terms of `s.passInstr` of the whole instruction. -/

namespace Sys2Proof.Machine

/-- The operand byte of the instruction at PC (R61). -/
def State.operandByte (s : State) : Byte := s.read (s.pc + 1)

/-- The operand word of the instruction at PC, low byte first (R61, R63). -/
def State.operandWord (s : State) : Word := wordOf (s.read (s.pc + 2)) (s.read (s.pc + 1))

@[simp] theorem State.fetchWindow_openRun (s : State) : s.openRun.fetchWindow = s.fetchWindow := by
  simp [State.fetchWindow]

/-- A penalty spent last is one counted with the instruction's other cycles. -/
theorem State.spend_passInstr (s : State) (f : Format) (p : Int) :
    ((s.passInstr f 0).spend (-1)).spend p = (s.passInstr f p).spend (-1) := by
  simp only [State.spend, State.passInstr, State.mk.injEq, true_and, and_true]
  omega

theorem State.spend_neg_one_spend_one (s : State) : (s.spend (-1)).spend 1 = s := by
  simp [State.spend]

namespace Engine

/-! ## Fetching the operand (R18) -/

theorem passInstr_op (s : State) : s.passInstr .op 0 = { s with pc := s.pc + 1, cost := 1 } := rfl

theorem fetchByte_operand (s : State) :
    fetchByte (s.passInstr .op 0) = (s.operandByte, { s with pc := s.pc + 2, cost := 1 }) := by
  rw [passInstr_op]
  simp [fetchByte, State.operandByte, BitVec.add_assoc]

theorem fetchWord_operand (s : State) :
    fetchWord (s.passInstr .op 0) = (s.operandWord, { s with pc := s.pc + 3, cost := 1 }) := by
  rw [passInstr_op]
  simp [fetchWord, fetchByte, State.operandWord, BitVec.add_assoc]

/-! ## The resolvers (R101 to R109)

A resolver of an address leaves one cycle of the instruction to be spent, that of
`LoadOperand`'s read (R100). -/

theorem resImm_eq (s : State) :
    resImm (s.passInstr .op 0) = (.imm s.operandByte, s.passInstr .imm 0) := by
  simp only [resImm, fetchByte_operand]
  rfl

theorem resZp_eq (s : State) :
    resZp (s.passInstr .op 0) = (.addr (eaZp s.operandByte), (s.passInstr .zp 0).spend (-1)) := by
  simp only [resZp, fetchByte_operand]
  rfl

theorem resZpi_eq (s : State) (idx : Byte) :
    resZpi idx (s.passInstr .op 0) =
      (.addr (eaZpIndexed s.operandByte idx), (s.passInstr .zpx 0).spend (-1)) := by
  simp only [resZpi, fetchByte_operand]
  rfl

theorem resAbs_eq (s : State) :
    resAbs (s.passInstr .op 0) = (.addr s.operandWord, (s.passInstr .abs 0).spend (-1)) := by
  simp only [resAbs, fetchWord_operand]
  rfl

theorem resIndx_eq (s : State) :
    resIndx (s.passInstr .op 0) =
      (.addr (s.eaIndX s.operandByte), (s.passInstr .indx 0).spend (-1)) := by
  simp only [resIndx, fetchByte_operand]
  rfl

/-- The penalty cycle, spent where the sum crosses a page, is `penalty` more cycles (R83, R108). -/
theorem spend_penalty (s : State) (base : Word) (idx : Byte) :
    (if pageCross s.config.pageCrossRule base (base + zext16 idx) then s.spend 1 else s) =
      s.spend (s.penalty base idx) := by
  unfold State.penalty eaAbsIndexed
  split
  · rfl
  · simp [State.spend]

theorem resAbsi_eq (s : State) (idx : Byte) :
    resAbsi idx (s.passInstr .op 0) = (.addr (eaAbsIndexed s.operandWord idx),
      (s.passInstr .absx (s.penalty s.operandWord idx)).spend (-1)) := by
  simp only [resAbsi, fetchWord_operand, spend_penalty]
  exact congrArg (Prod.mk _) (s.spend_passInstr .absx _)

theorem resIndy_eq (s : State) :
    resIndy (s.passInstr .op 0) = (.addr (s.eaIndY s.operandByte),
      (s.passInstr .indy (s.penalty (s.zpPointer s.operandByte) s.y)).spend (-1)) := by
  simp only [resIndy, fetchByte_operand, spend_penalty]
  exact congrArg (Prod.mk _) (s.spend_passInstr .indy _)

/-! ## The instructions (R120, R140, R88) -/

theorem loadA_imm (s : State) (f : Format) (p : Int) (v : Byte) :
    loadA (.imm v, s.passInstr f p) = s.loadA f p (.imm v) := rfl

/-- The cycle a resolver left is spent by the read. -/
theorem loadA_addr (s : State) (f : Format) (p : Int) (ea : Word) :
    loadA (.addr ea, (s.passInstr f p).spend (-1)) = s.loadA f p (.addr ea) := by
  simp only [loadA, loadOperand, State.spend_neg_one_spend_one]
  rfl

theorem execLdaImm_eq (s : State) :
    execLdaImm s.operandByte s = .next (loadA (resImm (s.passInstr .op 0))) := by
  rw [resImm_eq, loadA_imm]
  rfl

theorem execLdaZp_eq (s : State) :
    execLdaZp s.operandByte s = .next (loadA (resZp (s.passInstr .op 0))) := by
  rw [resZp_eq, loadA_addr]
  rfl

theorem execLdaZpX_eq (s : State) :
    execLdaZpX s.operandByte s = .next (loadA (resZpi s.x (s.passInstr .op 0))) := by
  rw [resZpi_eq, loadA_addr]
  rfl

theorem execLdaAbs_eq (s : State) :
    execLdaAbs s.operandWord s = .next (loadA (resAbs (s.passInstr .op 0))) := by
  rw [resAbs_eq, loadA_addr]
  rfl

theorem execLdaAbsX_eq (s : State) :
    execLdaAbsX s.operandWord s = .next (loadA (resAbsi s.x (s.passInstr .op 0))) := by
  rw [resAbsi_eq, loadA_addr]
  rfl

theorem execLdaAbsY_eq (s : State) :
    execLdaAbsY s.operandWord s = .next (loadA (resAbsi s.y (s.passInstr .op 0))) := by
  rw [resAbsi_eq, loadA_addr]
  rfl

theorem execLdaIndX_eq (s : State) :
    execLdaIndX s.operandByte s = .next (loadA (resIndx (s.passInstr .op 0))) := by
  rw [resIndx_eq, loadA_addr]
  rfl

theorem execLdaIndY_eq (s : State) :
    execLdaIndY s.operandByte s = .next (loadA (resIndy (s.passInstr .op 0))) := by
  rw [resIndy_eq, loadA_addr]
  rfl

theorem execJsrAbs_eq (s : State) :
    execJsrAbs s.operandWord s = .next (jsr (s.passInstr .op 0)) := by
  simp only [jsr, fetchWord_operand]
  rfl

theorem execute_undefined {op : Byte} (h : op ∉ definedOpcodes) (pc : Word) (s : State) :
    execute op pc s = s.emit (.unknownOpcode op pc) := by
  simp only [definedOpcodes, List.mem_cons, List.not_mem_nil, or_false, not_or] at h
  simp only [execute, h, if_false]

/-! ## The loop's body (R80) -/

/-- The loop's body is the opcode fetch, the instruction, and the charging of its cost. -/
theorem iteration_eq (s : State) :
    iteration s = (execute (s.read s.pc) s.pc (s.passInstr .op 0)).retire := rfl

end Engine

/-! ## The step -/

/-- The step and the loop's body agree where, for the opcode byte at PC, `exec` of the decoded
instruction and the pseudocode's `ExecuteInstruction` do (R84). -/
theorem step_eq_iteration {s : State} {op : Byte} {i : Instr} {rest : List Byte}
    (hop : s.openRun.read s.openRun.pc = op)
    (hd : decode [op, s.openRun.read (s.openRun.pc + 1), s.openRun.read (s.openRun.pc + 2)] =
      .ok (i, rest))
    (hx : exec i s.openRun = .next (Engine.execute op s.openRun.pc (s.openRun.passInstr .op 0))) :
    step s = .next (Engine.iteration s.openRun) := by
  subst hop
  exact step_eq_next.mpr ⟨i, rest, _, s.fetchWindow_openRun ▸ hd, hx, Engine.iteration_eq _⟩

/-- Settles O29, by the opcode byte at PC: the 247 undefined bytes (R66), then the table's nine
(R64), each by its instruction's lemma. -/
theorem stepIsSpecPseudocode : Obligations.StepIsSpecPseudocode := by
  intro s
  cases hl : lookupOpcode (s.openRun.read s.openRun.pc) with
  | none =>
    refine step_eq_iteration rfl (decode_of_none hl _) ?_
    rw [Engine.execute_undefined ((lookupOpcode_eq_none_iff _).mp hl)]
    rfl
  | some e =>
    rcases lookupOpcode_cases hl with ⟨hop, -⟩ | ⟨hop, -⟩ | ⟨hop, -⟩ | ⟨hop, -⟩ | ⟨hop, -⟩ |
      ⟨hop, -⟩ | ⟨hop, -⟩ | ⟨hop, -⟩ | ⟨hop, -⟩
    · exact step_eq_iteration hop rfl (Engine.execLdaImm_eq _)
    · exact step_eq_iteration hop rfl (Engine.execLdaZp_eq _)
    · exact step_eq_iteration hop rfl (Engine.execLdaZpX_eq _)
    · exact step_eq_iteration hop rfl (Engine.execLdaAbs_eq _)
    · exact step_eq_iteration hop rfl (Engine.execLdaAbsX_eq _)
    · exact step_eq_iteration hop rfl (Engine.execLdaAbsY_eq _)
    · exact step_eq_iteration hop rfl (Engine.execLdaIndX_eq _)
    · exact step_eq_iteration hop rfl (Engine.execLdaIndY_eq _)
    · exact step_eq_iteration hop rfl (Engine.execJsrAbs_eq _)

end Sys2Proof.Machine
end

section
/-! SUPPORT. What an executed instruction and a step can have done, as inversion lemmas; and what
that leaves unchanged (10_state.md R39). -/

namespace Sys2Proof.Machine

/-- The state after a call (R140). -/
def State.afterCall (s : State) (target : Word) : State :=
  { (s.passInstr .jabs 0).pushWord (s.pc + 3 - 1) with pc := target }

theorem exec_jsrAbs (target : Word) (s : State) :
    exec (.jsrAbs target) s = .next (s.afterCall target) := rfl

theorem exec_unknown (opcode : Byte) (s : State) :
    exec (.unknown opcode) s =
      .next ((s.passInstr .op 0).emit (.unknownOpcode opcode s.pc)) := rfl

/-- `exec_cases`, read from the state an instruction reached. -/
theorem exec_next_cases {i : Instr} {s t : State} (h : exec i s = .next t) :
    (i.isLoad = true ∧ ∃ p o, t = s.loadA i.format p o) ∨
    (∃ target, i = .jsrAbs target ∧ t = s.afterCall target) ∨
    (∃ opcode, i = .unknown opcode ∧
      t = (s.passInstr .op 0).emit (.unknownOpcode opcode s.pc)) := by
  rcases exec_cases i s with ⟨hi, p, o, -, hx⟩ | ⟨target, hi, hx⟩ | ⟨opcode, hi, hx⟩ <;>
    cases hx.symm.trans h
  · exact .inl ⟨hi, p, o, rfl⟩
  · exact .inr (.inl ⟨target, hi, rfl⟩)
  · exact .inr (.inr ⟨opcode, hi, rfl⟩)

theorem exec_load {i : Instr} {s t : State} (hi : i.isLoad = true) (h : exec i s = .next t) :
    ∃ p o, t = s.loadA i.format p o := by
  rcases exec_next_cases h with ⟨-, ht⟩ | ⟨target, rfl, -⟩ | ⟨opcode, rfl, -⟩
  · exact ht
  · cases hi
  · cases hi

/-- Only UnknownOpcode writes the log (R39). -/
theorem exec_log {i : Instr} {s t : State} (hi : i.format ≠ .op) (h : exec i s = .next t) :
    t.log = s.log := by
  rcases exec_next_cases h with ⟨-, p, o, rfl⟩ | ⟨target, rfl, rfl⟩ | ⟨opcode, rfl, -⟩
  · exact s.loadA_log i.format p o
  · rfl
  · exact absurd rfl hi

/-- `step_eq_next` for the instruction the bytes at PC are known to decode to. -/
theorem step_of_decode {s t : State} {i : Instr} {rest : List Byte}
    (hd : decode s.fetchWindow = .ok (i, rest)) (h : step s = .next t) :
    ∃ u, exec i s.openRun = .next u ∧ t = u.retire := by
  obtain ⟨j, rest', u, hd', hx, ht⟩ := step_eq_next.mp h
  cases hd.symm.trans hd'
  exact ⟨u, hx, ht⟩

/-- Settles O10: every form is a `loadA`, which writes A, Z, N, PC and the cost. -/
theorem loadFrame : Obligations.LoadFrame := by
  intro i s t hi h
  obtain ⟨p, o, rfl⟩ := exec_load hi h
  simp

/-- Settles O15: a call is a `pushWord`, which writes SP and the two stack bytes. -/
theorem jumpToSubroutineFrame : Obligations.JumpToSubroutineFrame := by
  intro target s t h
  cases (exec_jsrAbs target s).symm.trans h
  refine ⟨rfl, rfl, rfl, rfl, rfl, rfl, rfl, fun a h0 h1 => ?_⟩
  exact (State.read_pushWord _ _ a).trans ((if_neg h1).trans (if_neg h0))

/-- Settles O19: the event is all that UnknownOpcode adds to moving past its byte. -/
theorem unknownOpcodeFrame : Obligations.UnknownOpcodeFrame := by
  intro opcode s t h
  cases (exec_unknown opcode s).symm.trans h
  simp

/-- Settles O30: a load, a call and an undefined byte each keep what the others may write. -/
theorem stepWriteMatrix : Obligations.StepWriteMatrix := by
  intro s t i rest hd h
  obtain ⟨u, hx, rfl⟩ := step_of_decode hd h
  rcases exec_next_cases hx with ⟨hi, p, o, rfl⟩ | ⟨target, rfl, rfl⟩ | ⟨opcode, rfl, rfl⟩
  · simp [hi]
  · simp [State.afterCall, Instr.format]
  · simp [Instr.format]

end Sys2Proof.Machine
end

section
/-! SUPPORT. The canonical form of memory (10_state.md R32): every step, every run and every host
operation keeps it, and it makes equal readings equal data. -/

namespace Sys2Proof.Machine

theorem State.afterCall_memoryCanonical {s : State} (h : s.memoryCanonical) (target : Word) :
    (s.afterCall target).memoryCanonical :=
  Memory.wf_write (Memory.wf_write h _ _) _ _

/-- An instruction leaves memory alone or is a call. -/
theorem exec_keeps_memoryCanonical {i : Instr} {s t : State} (hs : s.memoryCanonical)
    (h : exec i s = .next t) : t.memoryCanonical := by
  rcases exec_next_cases h with ⟨-, p, o, rfl⟩ | ⟨target, -, rfl⟩ | ⟨opcode, -, rfl⟩
  · exact hs
  · exact State.afterCall_memoryCanonical hs target
  · exact hs

theorem State.openRun_memoryCanonical {s : State} (h : s.memoryCanonical) :
    s.openRun.memoryCanonical := by
  simpa [State.memoryCanonical] using h

/-- Settles O34: opening the run and charging the cost do not touch memory, and the instruction
keeps the form. -/
theorem stepKeepsMemoryCanonical : Obligations.StepKeepsMemoryCanonical := by
  intro s t hs h
  obtain ⟨i, rest, u, -, hx, rfl⟩ := step_eq_next.mp h
  have hu : u.memoryCanonical := exec_keeps_memoryCanonical (State.openRun_memoryCanonical hs) hx
  exact hu

/-- What every step keeps, the loop of a run keeps (R90). -/
theorem runLoop_keeps {P : State → Prop} (hstep : ∀ s t, P s → step s = .next t → P t)
    {fuel : Nat} {s t : State} (hs : P s) (h : runLoop fuel s = .next t) : P t := by
  induction fuel generalizing s with
  | zero => cases h; exact hs
  | succ fuel ih =>
    unfold runLoop at h
    split at h
    · obtain ⟨u, hu, hr⟩ := bindNext_eq_next.mp h
      exact ih (hstep s u hs hu) hr
    · cases h; exact hs

theorem run_keeps_memoryCanonical {n k : Int} {s t : State} (hs : s.memoryCanonical)
    (h : run n s = .next (t, k)) : t.memoryCanonical := by
  obtain ⟨u, hu, ht⟩ := mapNext_eq_next.mp h
  cases ht
  have hstart : State.memoryCanonical { s with remaining := n, cost := 0 } := hs
  have hend : u.memoryCanonical := runLoop_keeps stepKeepsMemoryCanonical hstart hu
  exact hend

theorem State.setReg_mem (s : State) (r : ByteReg) (v : Byte) : (s.setReg r v).mem = s.mem := by
  cases r <;> rfl

theorem hostBetweenRuns_keeps_memoryCanonical {q : HostRequest} {s t : State} {r : HostReply}
    (hs : s.memoryCanonical) (h : hostBetweenRuns q s = .next (t, r)) : t.memoryCanonical := by
  cases q with
  | reset | memoryReset => cases h; exact Memory.wf_empty
  | writeByte address v =>
    simp only [hostBetweenRuns] at h
    split at h <;> cases h
    exact Memory.wf_write hs _ v
  | readByte address =>
    simp only [hostBetweenRuns] at h
    split at h <;> cases h
    exact hs
  | writeReg reg v =>
    cases h
    rw [State.memoryCanonical, State.setReg_mem]
    exact hs
  | run n =>
    obtain ⟨⟨u, k⟩, hu, ht⟩ := mapNext_eq_next.mp h
    cases ht
    exact run_keeps_memoryCanonical hs hu
  | processorReset | writePc | writeFlag | readReg | readPc | readFlag | readLog =>
    cases h; exact hs

/-- Settles O35: during a run nothing is performed, and between runs each operation clears memory,
writes one byte, runs instructions, or leaves memory alone. -/
theorem hostKeepsMemoryCanonical : Obligations.HostKeepsMemoryCanonical := by
  intro q s t r hs h
  unfold hostAct at h
  split at h
  · cases h
  · exact hostBetweenRuns_keeps_memoryCanonical hs h

/-! Equal readings. -/

theorem Memory.wf_of_cons {c : Host.Cell} {m : Memory} (h : Memory.wf (c :: m)) : Memory.wf m :=
  ⟨h.1.of_cons, fun p hp => h.2 p (List.mem_cons_of_mem c hp)⟩

/-- A listed byte is read: no other cell is at its address. -/
theorem Memory.lookup_of_mem {m : Memory} {p : Host.Cell} (h : Memory.wf m) (hp : p ∈ m) :
    Memory.lookup p.1 m = p.2 := by
  induction m with
  | nil => cases hp
  | cons c m ih =>
    rw [Memory.lookup_cons]
    rcases List.mem_cons.mp hp with rfl | hp
    · exact if_pos rfl
    · have hc : c.1 ≠ p.1 := ((List.pairwise_cons.mp h.1).1 p hp).ne
      rw [if_neg hc]
      exact ih (Memory.wf_of_cons h) hp

/-- A byte other than the unlisted one is read from a cell. -/
theorem Memory.mem_of_lookup {k : Nat} {m : Memory} (h : Memory.lookup k m ≠ Memory.unlisted) :
    (k, Memory.lookup k m) ∈ m := by
  induction m with
  | nil => exact absurd rfl h
  | cons c m ih =>
    rw [Memory.lookup_cons] at h ⊢
    split at h
    · next hc => subst hc; simp
    · next hc => simp [hc, ih h]

/-- Reads at every address are lookups below 65536. -/
theorem Memory.lookup_eq_of_read_eq {m n : Memory}
    (h : ∀ a, Memory.read m a = Memory.read n a) {k : Nat} (hk : k < 65536) :
    Memory.lookup k m = Memory.lookup k n := by
  have hk' : (BitVec.ofNat 16 k).toNat = k := by simp [Nat.mod_eq_of_lt hk]
  simpa only [Memory.read, hk'] using h (BitVec.ofNat 16 k)

theorem Memory.subset_of_read_eq {m n : Memory} (hm : Memory.wf m)
    (h : ∀ a, Memory.read m a = Memory.read n a) : m ⊆ n := by
  intro p hp
  obtain ⟨hk, hv⟩ := hm.2 p hp
  have hn : Memory.lookup p.1 n = p.2 :=
    (Memory.lookup_eq_of_read_eq h hk).symm.trans (Memory.lookup_of_mem hm hp)
  simpa [hn] using Memory.mem_of_lookup (hn ▸ hv : Memory.lookup p.1 n ≠ Memory.unlisted)

/-- Settles O36: the two lists hold the same cells, and a strictly rising list is determined by
what it holds. -/
theorem equalReadsEqualMemory : Obligations.EqualReadsEqualMemory := by
  intro m n hm hn h
  have hmn : m ⊆ n := Memory.subset_of_read_eq hm h
  have hnm : n ⊆ m := Memory.subset_of_read_eq hn fun a => (h a).symm
  have : Std.Irrefl fun p q : Host.Cell => p.1 < q.1 := ⟨fun p => Nat.lt_irrefl p.1⟩
  have : Std.Antisymm fun p q : Host.Cell => p.1 < q.1 := ⟨fun _ _ hpq hqp => absurd hpq hqp.asymm⟩
  exact List.Subset.antisymm_of_pairwise hm.1 hn.1 hmn hnm

end Sys2Proof.Machine
end

section
/-! SUPPORT. The log, and what no step reads (10_state.md R33, R39). -/

namespace Sys2Proof

theorem decodeOperand_format {opcode : Byte} {f : Format} {bs rest : List Byte} {i : Instr}
    (h : decodeOperand opcode f bs = .ok (i, rest)) : i.format = f := by
  unfold decodeOperand at h
  split at h <;> cases h <;> rfl

/-- An undefined byte decodes to itself, a defined one to an instruction of the table (R65, R66). -/
theorem decode_cons_cases {opcode : Byte} {bs rest : List Byte} {i : Instr}
    (h : decode (opcode :: bs) = .ok (i, rest)) :
    (opcode ∉ definedOpcodes ∧ i = .unknown opcode) ∨
    (opcode ∈ definedOpcodes ∧ i.format ≠ .op) := by
  cases hl : lookupOpcode opcode with
  | none =>
    cases (decode_of_none hl bs).symm.trans h
    exact .inl ⟨(lookupOpcode_eq_none_iff opcode).mp hl, rfl⟩
  | some e =>
    have hdef : opcode ∈ definedOpcodes := by
      by_contra hn
      rw [(lookupOpcode_eq_none_iff opcode).mpr hn] at hl
      cases hl
    have hop : ∀ e ∈ opcodeTable, e.format ≠ .op := by decide
    rw [decode_of_some hl] at h
    exact .inr ⟨hdef, decodeOperand_format h ▸ hop e (lookupOpcode_eq_some hl).1⟩

namespace Machine

/-- Settles O33: what a defined byte decodes to is no UnknownOpcode, which alone writes the log. -/
theorem logGrowsByUndefinedOpcodes : Obligations.LogGrowsByUndefinedOpcodes := by
  intro s t h
  obtain ⟨i, rest, u, hd, hx, rfl⟩ := step_eq_next.mp h
  rcases decode_cons_cases hd with ⟨hop, rfl⟩ | ⟨hop, hi⟩
  · rw [Memory.read_of_state] at hop
    cases (exec_unknown _ _).symm.trans hx
    simp [hop]
  · rw [Memory.read_of_state] at hop
    simp [hop, exec_log hi hx]

/-- Settles O38: the one event a step can add names an undefined byte. -/
theorem stepKeepsLogUndefinedOnly : Obligations.StepKeepsLogUndefinedOnly := by
  intro s t hs h opcode pc hmem
  have hlog := logGrowsByUndefinedOpcodes s t h
  split at hlog
  · exact hs opcode pc (hlog ▸ hmem)
  · next hop =>
    rw [hlog, List.mem_append, List.mem_singleton] at hmem
    rcases hmem with hold | hnew
    · exact hs opcode pc hold
    · cases hnew
      exact hop

/-- Settles O39: memory and log are empty at reset. -/
theorem resetMeetsInvariants : Obligations.ResetMeetsInvariants :=
  ⟨Memory.wf_empty, fun _ _ h => absurd h List.not_mem_nil⟩

/-! The accumulator, the flags and the log. -/

/-- The state with another accumulator, other flags and another log. -/
def State.withUnread (s : State) (a : Byte) (f : Flags) (l : List Event) : State :=
  { s with a := a, flags := f, log := l }

theorem State.openRun_withUnread (s : State) (a : Byte) (f : Flags) (l : List Event) :
    (s.withUnread a f l).openRun = s.openRun.withUnread a f l := by
  by_cases h : 0 < s.remaining
  · rw [State.openRun_of_running h]
    exact State.openRun_of_running h
  · rw [State.openRun_of_idle h]
    exact State.openRun_of_idle h

/-- A load reads none of the three: from the other state it leaves the same A, Z and N. -/
theorem State.loadA_withUnread (s : State) (a : Byte) (f : Flags) (l : List Event)
    (fmt : Format) (p : Int) (o : Operand) :
    (s.withUnread a f l).loadA fmt p o =
      (s.loadA fmt p o).withUnread (s.loadA fmt p o).a
        { f with z := (s.loadA fmt p o).flags.z, n := (s.loadA fmt p o).flags.n } l := by
  cases o with
  | imm v => rfl
  | addr ea => rfl

/-- A step from the other state runs the same instruction. -/
theorem step_withUnread {s u : State} {i : Instr} {rest : List Byte} {a : Byte} {f : Flags}
    {l : List Event} (hd : decode s.fetchWindow = .ok (i, rest))
    (hx : exec i (s.openRun.withUnread a f l) = .next u) :
    step (s.withUnread a f l) = .next u.retire :=
  step_eq_next.mpr ⟨i, rest, u, hd, (s.openRun_withUnread a f l).symm ▸ hx, rfl⟩

/-- Settles O32: the operand and penalty of a load, the bytes a call pushes and the event of an
undefined byte do not depend on the accumulator, the flags or the log. -/
theorem accumulatorFlagsLogNeverRead : Obligations.AccumulatorFlagsLogNeverRead := by
  intro s t i rest a f l hd h
  obtain ⟨u, hx, rfl⟩ := step_of_decode hd h
  cases i with
  | ldaImm | ldaZp | ldaZpX | ldaAbs | ldaAbsX | ldaAbsY | ldaIndX | ldaIndY =>
    cases hx
    exact step_withUnread hd (congrArg Host.Outcome.next (s.openRun.loadA_withUnread a f l _ _ _))
  | jsrAbs target =>
    cases hx
    exact step_withUnread hd (exec_jsrAbs target _)
  | unknown opcode =>
    cases hx
    have hpc : (s.openRun.withUnread a f l).pc = s.pc := s.openRun_pc
    refine (step_withUnread hd (exec_unknown opcode _)).trans ?_
    rw [hpc]
    rfl

end Machine
end Sys2Proof
end

section
/-! SUPPORT. What the fetch after a call sees (20_memory.md R55, 70_reset_and_hazards.md R181), and
that the host has no move during a run (20_memory.md R47, 70_reset_and_hazards.md R175). -/

namespace Sys2Proof.Machine

/-- The bytes an instruction at PC can occupy are those at PC, PC + 1 and PC + 2 (R62). -/
theorem State.fetchWindow_getElem? (s : State) {k : Nat} (hk : k < 3) :
    s.fetchWindow[k]? = some (Memory.read s.mem (s.pc + BitVec.ofNat 16 k)) := by
  match k, hk with
  | 0, _ => simp [State.fetchWindow]
  | 1, _ => rfl
  | 2, _ => rfl

/-- The two bytes of one call lie at two addresses, also where the offset wraps (R141). -/
theorem stackAddr_zero_ne_one (sp : Byte) : stackAddr sp 0 ≠ stackAddr sp 1 := by
  unfold stackAddr zext16
  bv_omega

/-- The address a call pushes is that of the instruction's last byte (R140). -/
theorem returnAddress_toNat (pc : Word) : (pc + 3 - 1).toNat = (pc.toNat + 2) % 65536 := by
  bv_omega

theorem loByte_eq_ofNat (w : Word) : loByte w = BitVec.ofNat 8 (w.toNat % 256) :=
  BitVec.eq_of_toNat_eq (by simp)

theorem hiByte_eq_ofNat (w : Word) : hiByte w = BitVec.ofNat 8 (w.toNat / 256) := by
  have hlt : w.toNat / 256 < 256 := by have := w.isLt; omega
  exact BitVec.eq_of_toNat_eq (by simp [Nat.mod_eq_of_lt hlt])

/-- Memory after a call, the return address's low byte first (R140, R141). -/
theorem State.read_afterCall (s : State) (target b : Word) :
    Memory.read (s.afterCall target).mem b =
      if b = stackAddr s.sp 0 then BitVec.ofNat 8 ((s.pc.toNat + 2) % 65536 % 256)
      else if b = stackAddr s.sp 1 then BitVec.ofNat 8 ((s.pc.toNat + 2) % 65536 / 256)
      else Memory.read s.mem b := by
  rw [← returnAddress_toNat, ← loByte_eq_ofNat, ← hiByte_eq_ofNat]
  refine (State.read_pushWord (s.passInstr .jabs 0) _ b).trans ?_
  rw [State.passInstr_sp, State.passInstr_mem]
  by_cases h0 : b = stackAddr s.sp 0
  · have h1 : b ≠ stackAddr s.sp 1 := h0 ▸ stackAddr_zero_ne_one s.sp
    simp only [if_pos h0, if_neg h1]
  · simp only [if_neg h0]

/-- Settles O17: the next fetch reads, at the target, the memory the call has written. -/
theorem fetchSeesCallWrites : Obligations.FetchSeesCallWrites := by
  intro target s t h k hk
  cases (exec_jsrAbs target s).symm.trans h
  exact (State.fetchWindow_getElem? _ hk).trans (congrArg some (s.read_afterCall target _))

/-- Settles O52: the port tests for a run in progress before it looks at the request. -/
theorem noHostOperationDuringRun : Obligations.NoHostOperationDuringRun := by
  intro q s h
  exact if_pos h

end Sys2Proof.Machine
end

section
/-! SUPPORT. The decoder and the encoder as inverses of each other, and the decoder's refusals
(30_encoding.md R60 to R67). -/

namespace Sys2Proof

/-! ## The table and the formats -/

theorem encodedShape (i : Instr) : Laws.EncodedShape.Statement i := by
  cases i with
  | ldaImm v => exact Laws.EncodedShape.ldaImm v
  | ldaZp z => exact Laws.EncodedShape.ldaZp z
  | ldaZpX z => exact Laws.EncodedShape.ldaZpX z
  | ldaAbs w => exact Laws.EncodedShape.ldaAbs w
  | ldaAbsX w => exact Laws.EncodedShape.ldaAbsX w
  | ldaAbsY w => exact Laws.EncodedShape.ldaAbsY w
  | ldaIndX z => exact Laws.EncodedShape.ldaIndX z
  | ldaIndY z => exact Laws.EncodedShape.ldaIndY z
  | jsrAbs w => exact Laws.EncodedShape.jsrAbs w
  | unknown opcode => exact Laws.EncodedShape.unknown opcode

theorem Format.length_le_three (f : Format) : f.length ≤ 3 := by
  cases f <;> decide

theorem Instr.wellFormed_of_format_ne_op {i : Instr} (h : i.format ≠ .op) :
    i.wellFormed = true := by
  cases i with
  | unknown => exact absurd rfl h
  | ldaImm | ldaZp | ldaZpX | ldaAbs | ldaAbsX | ldaAbsY | ldaIndX | ldaIndY | jsrAbs => rfl

/-- No entry has the format of an undefined byte (R64, R66). -/
theorem lookupOpcode_format_ne_op {opcode : Byte} {e : OpcodeEntry}
    (h : lookupOpcode opcode = some e) : e.format ≠ .op := by
  have htable : ∀ e ∈ opcodeTable, e.format ≠ .op := by decide
  exact htable e (lookupOpcode_eq_some h).1

/-- No two opcodes of the table share a format (R64). -/
theorem lookupOpcode_format_injective {op op' : Byte} {e e' : OpcodeEntry}
    (h : lookupOpcode op = some e) (h' : lookupOpcode op' = some e')
    (hf : e.format = e'.format) : op = op' := by
  have htable : ∀ e ∈ opcodeTable, ∀ e' ∈ opcodeTable, e.format = e'.format → e = e' := by decide
  obtain ⟨hm, rfl⟩ := lookupOpcode_eq_some h
  obtain ⟨hm', rfl⟩ := lookupOpcode_eq_some h'
  rw [htable e hm e' hm' hf]

/-- An instruction of an entry's format is encoded with that entry's opcode (R64). -/
theorem encode_eq_opcode_cons {opcode : Byte} {e : OpcodeEntry} {i : Instr}
    (h : lookupOpcode opcode = some e) (hf : i.format = e.format) :
    encode i = opcode :: (encode i).tail := by
  have hop : i.format ≠ .op := hf ▸ lookupOpcode_format_ne_op h
  have hhead := (encodedShape i).2 hop
  cases hi : encode i with
  | nil => simp [hi] at hhead
  | cons op bs =>
    simp only [hi, List.head?_cons, Option.bind_some, Option.map_eq_some_iff] at hhead
    obtain ⟨e', he', hf'⟩ := hhead
    rw [List.tail_cons, lookupOpcode_format_injective he' h (hf'.trans hf)]

/-! ## The operand -/

/-- The bytes an operand was assembled from are those the encoder writes after the opcode
(R61, R63). -/
theorem decodeOperand_eq_ok {opcode : Byte} {f : Format} {bs rest : List Byte} {i : Instr}
    (h : decodeOperand opcode f bs = .ok (i, rest)) : (encode i).tail ++ rest = bs := by
  unfold decodeOperand at h
  split at h <;> cases h <;> simp [encode]

/-- An operand is refused exactly if its format asks for more bytes than there are (R61, R67). -/
theorem decodeOperand_eq_error_iff {opcode : Byte} {f : Format} {bs : List Byte}
    {e : DecodeError} : decodeOperand opcode f bs = .error e ↔
      bs.length + 1 < f.length ∧ e = .missingOperand opcode := by
  cases f with
  | op => simp [decodeOperand, Format.length]
  | imm | zp | zpx | indx | indy =>
    rcases bs with _ | ⟨b, bs⟩ <;> simp [decodeOperand, Format.length, eq_comm]
  | abs | absx | absy | jabs =>
    rcases bs with _ | ⟨l, _ | ⟨h, bs⟩⟩ <;> simp [decodeOperand, Format.length, eq_comm]

/-! ## The statements -/

/-- Settles O21: the opcode written selects the instruction's own format, and the slices of a
16-bit operand assemble to it again; an undefined byte has no entry to select. -/
theorem decodeOfEncode : Obligations.DecodeOfEncode := by
  intro i rest hi
  cases i with
  | ldaImm | ldaZp | ldaZpX | ldaIndX | ldaIndY => rfl
  | ldaAbs w | ldaAbsX w | ldaAbsY w | jsrAbs w =>
    conv_rhs => rw [← wordOf_hi_lo w]
    rfl
  | unknown opcode => exact decode_of_none ((wellFormed_unknown opcode).mp hi) rest

/-- Settles O22, by the table entry of the first byte: without one it is an undefined byte; with
one the instruction has the entry's format, which gives the opcode back. -/
theorem encodeOfDecode : Obligations.EncodeOfDecode := by
  intro bs rest i h
  cases bs with
  | nil => cases h
  | cons opcode bs =>
    cases hl : lookupOpcode opcode with
    | none =>
      cases (decode_of_none hl bs).symm.trans h
      exact ⟨(wellFormed_unknown opcode).mpr hl, rfl⟩
    | some e =>
      rw [decode_of_some hl] at h
      have hf : i.format = e.format := decodeOperand_format h
      refine ⟨Instr.wellFormed_of_format_ne_op (hf ▸ lookupOpcode_format_ne_op hl), ?_⟩
      rw [encode_eq_opcode_cons hl hf, List.cons_append, decodeOperand_eq_ok h]

/-- Settles O24: an opcode without an entry needs no more bytes, and one with an entry is refused
as its operand is. -/
theorem decodeRefusesOnlyShortInput : Obligations.DecodeRefusesOnlyShortInput := by
  intro bs err
  cases bs with
  | nil => simp [eq_comm]
  | cons opcode bs =>
    cases hl : lookupOpcode opcode with
    | none => simp [decode_of_none hl, hl]
    | some e => simp [decode_of_some hl, hl, decodeOperand_eq_error_iff]

/-- Settles O23: three bytes are not too few for any format, and the bytes consumed are the
instruction's encoding. -/
theorem threeBytesAlwaysDecode : Obligations.ThreeBytesAlwaysDecode := by
  intro b0 b1 b2 rest
  cases hd : decode (b0 :: b1 :: b2 :: rest) with
  | error err =>
    rcases (decodeRefusesOnlyShortInput _ _).mp hd with ⟨hnil, -⟩ | ⟨_, _, e, -, -, hlt, -⟩
    · cases hnil
    · have := e.format.length_le_three
      simp only [List.length_cons] at hlt
      omega
  | ok p =>
    obtain ⟨i, rest'⟩ := p
    have henc := congrArg List.length (encodeOfDecode _ _ _ hd).2
    have hlen := (encodedShape i).1
    simp only [List.length_append, List.length_cons] at henc
    exact ⟨i, rest', rfl, by omega⟩

/-- A list written out as a well-formed instruction's bytes decodes to it. -/
theorem decode_of_encode_eq {i : Instr} {bs rest : List Byte} (hi : i.wellFormed = true)
    (h : encode i ++ rest = bs) : decode bs = .ok (i, rest) :=
  h ▸ decodeOfEncode i rest hi

/-- Settles O20: each word is what the encoder writes for its row. -/
theorem decodesSampleWords : Obligations.DecodesSampleWords :=
  ⟨decode_of_encode_eq rfl rfl, decode_of_encode_eq rfl rfl, decode_of_encode_eq rfl rfl,
    decode_of_encode_eq rfl rfl, decode_of_encode_eq rfl rfl, decode_of_encode_eq rfl rfl,
    decode_of_encode_eq rfl rfl, decode_of_encode_eq rfl rfl, decode_of_encode_eq rfl rfl,
    decode_of_encode_eq rfl rfl⟩

end Sys2Proof
end

section
/-! SUPPORT. The opcode table against the machine: what its base costs say of `exec` (30_encoding.md
R64, 40_engine.md R83), and that a word placed at PC is what is fetched there (R62). -/

namespace Sys2Proof.Machine

/-- The formats whose effective address is a 16-bit indexed sum, the only ones with a penalty
(R83, R108). -/
def sumsIndex : Format → Bool
  | .absx | .absy | .indy => true
  | .op | .imm | .zp | .zpx | .abs | .indx | .jabs => false

/-- An instruction costs its format's cycles, and a penalty where it sums an index. -/
theorem exec_cost {i : Instr} {s t : State} (h : exec i s = .next t) :
    ∃ p, t.cost = 1 + modeCost i.format + p + opCost i.format ∧
      (p = 0 ∨ sumsIndex i.format = true ∧ p = 1) := by
  cases i with
  | ldaImm | ldaZp | ldaZpX | ldaAbs | ldaIndX | jsrAbs | unknown =>
    cases h
    exact ⟨0, rfl, .inl rfl⟩
  | ldaAbsX w =>
    cases h
    exact ⟨_, rfl, (s.penalty_cases w s.x).imp_right (.intro rfl)⟩
  | ldaAbsY w =>
    cases h
    exact ⟨_, rfl, (s.penalty_cases w s.y).imp_right (.intro rfl)⟩
  | ldaIndY z =>
    cases h
    exact ⟨_, rfl, (s.penalty_cases (s.zpPointer z) s.y).imp_right (.intro rfl)⟩

/-- Each entry states the cycles of its format and whether it sums an index (R64). -/
theorem opcodeTable_costs : ∀ e ∈ opcodeTable,
    e.baseCost = 1 + modeCost e.format + opCost e.format ∧
      e.penaltyPossible = sumsIndex e.format := by
  decide

/-- Settles O25: the entry's columns are those of the instruction's format. -/
theorem tableBaseCosts : Obligations.TableBaseCosts := by
  intro i s t opcode e hl hf h
  obtain ⟨hbase, hpen⟩ := opcodeTable_costs e (lookupOpcode_eq_some hl).1
  obtain ⟨p, hcost, hp⟩ := exec_cost h
  rw [hbase, hpen, hf, hcost]
  rcases hp with rfl | ⟨hsum, rfl⟩
  · exact .inl (by omega)
  · exact .inr ⟨hsum, by omega⟩

/-- Three bytes written at consecutive addresses are read back there, also across the wrap at
65536 (R41). -/
theorem Memory.read_writeBytes_three (m : Memory) (a : Word) (b0 b1 b2 : Byte) :
    Memory.read (Memory.writeBytes m a [b0, b1, b2]) a = b0 ∧
    Memory.read (Memory.writeBytes m a [b0, b1, b2]) (a + 1) = b1 ∧
    Memory.read (Memory.writeBytes m a [b0, b1, b2]) (a + 2) = b2 := by
  simp [Memory.writeBytes, Memory.read_write, BitVec.add_assoc]

theorem State.fetchWindow_withFetchWord (s : State) (nbits w : Nat) :
    (s.withFetchWord nbits w).fetchWindow = tableBytes nbits w := by
  obtain ⟨h0, h1, h2⟩ := Memory.read_writeBytes_three s.mem s.pc
    (BitVec.ofNat 8 (w % 2 ^ nbits)) (BitVec.ofNat 8 (w % 2 ^ nbits / 2 ^ 8))
    (BitVec.ofNat 8 (w % 2 ^ nbits / 2 ^ 16))
  simp only [State.fetchWindow, Memory.read_of_state, State.withFetchWord_mem,
    State.withFetchWord_pc, tableBytes, h0, h1, h2]

theorem decodeTableWord_of_decode {nbits w : Nat} {i : Instr} {rest : List Byte}
    (h : decode (tableBytes nbits w) = .ok (i, rest)) : decodeTableWord nbits w = some i := by
  simp [decodeTableWord, h]

/-- Settles O54: the bytes fetched are the word's own three, which decode as any three do. -/
theorem placedWordIsFetched : Obligations.PlacedWordIsFetched := by
  intro s nbits w
  obtain ⟨i, rest, hd, -⟩ := threeBytesAlwaysDecode (BitVec.ofNat 8 (w % 2 ^ nbits))
    (BitVec.ofNat 8 (w % 2 ^ nbits / 2 ^ 8)) (BitVec.ofNat 8 (w % 2 ^ nbits / 2 ^ 16)) []
  exact ⟨i, rest, decodeTableWord_of_decode hd, s.fetchWindow_withFetchWord nbits w ▸ hd⟩

end Sys2Proof.Machine
end

section
/-! SUPPORT. The engine (40_engine.md): what one step does to the budget (R80 to R85), the event of
an undefined byte (R88) and the load flag rule (R89). -/

namespace Sys2Proof.Machine

/-! ## The step and its cost -/

theorem exec_remaining {i : Instr} {s t : State} (h : exec i s = .next t) :
    t.remaining = s.remaining := by
  rcases exec_next_cases h with ⟨-, p, o, rfl⟩ | ⟨target, -, rfl⟩ | ⟨opcode, -, rfl⟩
  · exact s.loadA_remaining i.format p o
  · rfl
  · rfl

/-- Every instruction costs 1 to 6 cycles (R182): no format costs more than 6 without a penalty,
and none that can have one more than 5 before it. -/
theorem exec_cost_bounds {i : Instr} {s t : State} (h : exec i s = .next t) :
    1 ≤ t.cost ∧ t.cost ≤ 6 := by
  obtain ⟨p, hcost, hp⟩ := exec_cost h
  rw [hcost]
  rcases hp with rfl | ⟨hsum, rfl⟩
  · cases i.format <;> decide
  · revert hsum
    cases i.format <;> decide

theorem exec_goesOn (i : Instr) (s : State) : ∃ t, exec i s = .next t := by
  rcases exec_cases i s with ⟨-, p, o, -, hx⟩ | ⟨target, -, hx⟩ | ⟨opcode, -, hx⟩ <;>
    exact ⟨_, hx⟩

/-- The three bytes fetched decode, whatever they are, and their instruction goes on (R67, R150). -/
theorem step_goesOn (s : State) : s.goesOn := by
  obtain ⟨i, rest, hd, -⟩ :=
    threeBytesAlwaysDecode (s.read s.pc) (s.read (s.pc + 1)) (s.read (s.pc + 2)) []
  obtain ⟨u, hx⟩ := exec_goesOn i s.openRun
  exact ⟨u.retire, step_eq_next.mpr ⟨i, rest, u, hd, hx, rfl⟩⟩

/-- What a step charges to the run it belongs to (R83). -/
theorem step_budget {s t : State} (h : step s = .next t) :
    t.remaining = s.openRun.remaining - t.cost ∧ 1 ≤ t.cost ∧ t.cost ≤ 6 := by
  obtain ⟨i, rest, u, -, hx, rfl⟩ := step_eq_next.mp h
  rw [State.retire_remaining, State.retire_cost, exec_remaining hx]
  exact ⟨rfl, exec_cost_bounds hx⟩

/-- Settles O40: a run in progress is the one the step charges. -/
theorem stepSpendsBudget : Obligations.StepSpendsBudget := by
  intro s hs
  obtain ⟨t, ht⟩ := step_goesOn s
  obtain ⟨hrem, hcost⟩ := step_budget ht
  rw [State.openRun_of_running hs] at hrem
  exact ⟨t, ht, hrem, hcost⟩

/-- Settles O27: the bytes are the fetch window, the state run from is `openRun`, and charging the
cost is `retire`. -/
theorem stepRunsDecoded : Obligations.StepRunsDecoded := by
  intro s i rest hd
  obtain ⟨u, hx⟩ := exec_goesOn i s.openRun
  have hstep : step s = .next u.retire := step_eq_next.mpr ⟨i, rest, u, hd, hx, rfl⟩
  rw [State.openRun] at hx
  rw [hstep, hx]
  rfl

/-! ## Undefined bytes and the load flags -/

/-- Settles O18: a byte without a table entry takes no operand, and its meaning is the event. -/
theorem unknownOpcodeResult : Obligations.UnknownOpcodeResult := by
  intro opcode h
  exact ⟨decode_of_none ((lookupOpcode_eq_none_iff opcode).mpr h), exec_unknown opcode⟩

/-- Bit 7 of a byte as a bound on its number. -/
theorem byte_getLsbD_seven_iff (v : Byte) : v.getLsbD 7 = true ↔ 0x80 ≤ v.toNat := by
  have hmsb : v.getLsbD 7 = v.msb := (BitVec.msb_eq_getLsbD_last v).symm
  rw [hmsb, BitVec.msb_eq_decide, decide_eq_true_iff]

/-- Settles O9: the rule writes Z and N only, Z by equality with 0 and N by bit 7. -/
theorem loadFlagRule : Obligations.LoadFlagRule := by
  intro f v
  refine ⟨?_, byte_getLsbD_seven_iff v, rfl, rfl, rfl, rfl, rfl⟩
  rw [Flags.loadFlags_z, beq_iff_eq, ← BitVec.toNat_inj]
  rfl

end Sys2Proof.Machine
end

section
/-! SUPPORT. The run (40_engine.md R80, R81, R86, R87): the loop as so many steps, each taken while
the budget is positive. -/

namespace Sys2Proof.Machine

/-! ## The loop, one test at a time -/

theorem runLoop_of_spent {s : State} (h : s.remaining ≤ 0) (fuel : Nat) :
    runLoop fuel s = .next s := by
  cases fuel with
  | zero => rfl
  | succ fuel => exact if_neg (by omega)

theorem runLoop_of_running {s t : State} (h : 0 < s.remaining) (ht : step s = .next t)
    (fuel : Nat) : runLoop (fuel + 1) s = runLoop fuel t := by
  rw [runLoop, if_pos h, ht, bindNext_next]

theorem steps_of_step {s t : State} (ht : step s = .next t) (m : Nat) :
    steps (m + 1) s = steps m t := by
  rw [steps, ht, bindNext_next]

/-- A run answers what its loop reached, closed, and the budget less what remains (R34, R86). -/
theorem run_of_runLoop {n : Int} {s u : State}
    (h : runLoop n.toNat { s with remaining := n, cost := 0 } = .next u) :
    run n s = .next (u.closeRun, n - u.remaining) := by
  rw [run, h, mapNext_next]

/-- Settles O41: the loop's test comes before its step, and without a step nothing is written but
the run-internal values. -/
theorem budgetTestedBeforeFetch : Obligations.BudgetTestedBeforeFetch := by
  refine ⟨fun fuel s h => runLoop_of_spent h fuel, fun fuel s h => ?_, fun n s hn => ?_⟩
  · obtain ⟨t, ht⟩ := step_goesOn s
    exact ⟨t, ht, runLoop_of_running h ht fuel⟩
  · have hrun := run_of_runLoop (runLoop_of_spent (s := { s with remaining := n, cost := 0 }) hn _)
    rw [sub_self] at hrun
    exact hrun

/-! ## The loop as steps -/

/-- `m` steps lead from `s` to `u`, and before each of them the budget is positive (R80). -/
structure RunsFor (m : Nat) (s u : State) : Prop where
  reaches : steps m s = .next u
  running : ∀ j < m, ∃ v, steps j s = .next v ∧ 0 < v.remaining

theorem RunsFor.zero (s : State) : RunsFor 0 s s :=
  ⟨rfl, fun j hj => absurd hj j.not_lt_zero⟩

theorem RunsFor.succ {m : Nat} {s t u : State} (hs : 0 < s.remaining) (ht : step s = .next t)
    (h : RunsFor m t u) : RunsFor (m + 1) s u where
  reaches := (steps_of_step ht m).trans h.reaches
  running
    | 0, _ => ⟨s, rfl, hs⟩
    | j + 1, hj => by
      rw [steps_of_step ht j]
      exact h.running j (by omega)

/-- With as much fuel as budget the loop ends by its test: each step takes at least 1 from the
budget, and the last at most 6 from one that was still positive (R86, R87). -/
theorem runLoop_spends_budget (fuel : Nat) (s : State) (hle : s.remaining ≤ fuel)
    (hge : -5 ≤ s.remaining) :
    ∃ m u, m ≤ fuel ∧ RunsFor m s u ∧ runLoop fuel s = .next u ∧
      u.remaining ≤ 0 ∧ -5 ≤ u.remaining := by
  induction fuel generalizing s with
  | zero => exact ⟨0, s, le_rfl, .zero s, rfl, hle, hge⟩
  | succ fuel ih =>
    by_cases hs : 0 < s.remaining
    · obtain ⟨t, ht, hrem, hlow, hhigh⟩ := stepSpendsBudget s hs
      obtain ⟨m, u, hm, hruns, hloop, hu⟩ := ih t (by omega) (by omega)
      exact ⟨m + 1, u, by omega, hruns.succ hs ht, (runLoop_of_running hs ht fuel).trans hloop, hu⟩
    · have hspent : s.remaining ≤ 0 := by omega
      exact ⟨0, s, by omega, .zero s, runLoop_of_spent hspent _, hspent, hge⟩

/-- `runLoop_spends_budget` for the loop of a run: it takes a step at least, the budget being
positive at first. -/
theorem run_spends_budget {n : Int} (hn : 0 < n) (s : State) :
    ∃ (m : Nat) (u : State), 0 < m ∧ (m : Int) ≤ n ∧ RunsFor m { s with remaining := n, cost := 0 } u ∧
      runLoop n.toNat { s with remaining := n, cost := 0 } = .next u ∧
      u.remaining ≤ 0 ∧ -5 ≤ u.remaining := by
  have hle : n ≤ n.toNat := n.self_le_toNat
  have hge : -5 ≤ n := by omega
  obtain ⟨m, u, hm, hruns, hloop, hspent, hover⟩ :=
    runLoop_spends_budget n.toNat { s with remaining := n, cost := 0 } hle hge
  have hpos : m ≠ 0 := by
    rintro rfl
    cases hruns.reaches
    exact absurd hspent (not_le.mpr hn)
  exact ⟨m, u, by omega, by omega, hruns, hloop, hspent, hover⟩

/-- Settles O42: the steps are those of the loop. -/
theorem runTerminates : Obligations.RunTerminates := by
  intro n s hn
  obtain ⟨m, u, hpos, hm, hruns, hloop, hspent, -⟩ := run_spends_budget hn s
  exact ⟨m, u, hpos, hm, hruns.reaches, hspent, hruns.running, run_of_runLoop hloop⟩

/-- Settles O43: what remains at the end of the loop is from -5 to 0. -/
theorem runReturnsWithinFive : Obligations.RunReturnsWithinFive := by
  intro n s hn
  obtain ⟨m, u, -, -, -, hloop, hspent, hover⟩ := run_spends_budget hn s
  exact ⟨u, n - u.remaining, hloop, run_of_runLoop hloop, rfl, by omega, by omega⟩

end Sys2Proof.Machine
end

section
/-! PROOFS. The page-cross rules of R108. Each rule is first read as arithmetic on any two words;
the equivalent forms then turn on whether the 16-bit sum wraps. -/

namespace Sys2Proof.Machine

theorem pageCross_canonical_iff (base ea : Word) :
    pageCross .canonical base ea = true ↔ base.toNat / 256 ≠ ea.toNat / 256 := by
  simp [pageCross, ← BitVec.toNat_inj]

theorem pageCross_literal_iff (base ea : Word) :
    pageCross .literal base ea = true ↔ 0xFF ≤ (ea.toNat : Int) - (base.toNat : Int) := by
  simp [pageCross]

theorem byte_eq_0xFF_iff (b : Byte) : b = 0xFF ↔ b.toNat = 0xFF := by
  simp [← BitVec.toNat_inj]

/-- The index being a byte, an indexed sum either stays in 16 bits or wraps once (R105). -/
theorem indexedSum_toNat_cases (base : Word) (idx : Byte) :
    (BitVec.ofNat 16 (base.toNat + idx.toNat)).toNat = base.toNat + idx.toNat ∧
        base.toNat + idx.toNat ≤ 0xFFFF ∨
      (BitVec.ofNat 16 (base.toNat + idx.toNat)).toNat + 0x10000 = base.toNat + idx.toNat := by
  have hbase := base.isLt
  have hidx := idx.isLt
  rw [BitVec.toNat_ofNat]
  omega

/-- The high bytes differ when the low bytes carry, the wrap at 65536 among the carries. -/
theorem pageCross_canonical_indexedSum_iff (base : Word) (idx : Byte) :
    pageCross .canonical base (BitVec.ofNat 16 (base.toNat + idx.toNat)) = true ↔
      0x100 ≤ base.toNat % 256 + idx.toNat := by
  have hbase := base.isLt
  have hidx := idx.isLt
  rw [pageCross_canonical_iff]
  rcases indexedSum_toNat_cases base idx with ⟨hsum, -⟩ | hwrap <;> omega

/-- Without a wrap the difference is the index; with one it is negative (D5). -/
theorem pageCross_literal_indexedSum_iff (base : Word) (idx : Byte) :
    pageCross .literal base (BitVec.ofNat 16 (base.toNat + idx.toNat)) = true ↔
      idx = 0xFF ∧ base.toNat + 0xFF ≤ 0xFFFF := by
  have hidx := idx.isLt
  rw [pageCross_literal_iff, byte_eq_0xFF_iff]
  rcases indexedSum_toNat_cases base idx with ⟨hsum, hfits⟩ | hwrap <;> omega

/-- Settles O12: the three differences follow from the equivalent forms. -/
theorem pageCrossRules : Obligations.PageCrossRules := by
  rintro base idx _ rfl
  have hcanonical := pageCross_canonical_indexedSum_iff base idx
  have hliteral := pageCross_literal_indexedSum_iff base idx
  refine ⟨pageCross_canonical_iff _ _, hcanonical, pageCross_literal_iff _ _, hliteral, ?_, ?_, ?_⟩
  all_goals rw [← Bool.not_eq_true, hcanonical, hliteral]
  · intro hmax hlow
    have hidx := (byte_eq_0xFF_iff idx).mp hmax
    exact ⟨by omega, hmax, by omega⟩
  · intro hmax hcarry
    exact ⟨hcarry, fun ⟨hidx, _⟩ => hmax hidx⟩
  · intro hwrap
    have hidx := idx.isLt
    exact ⟨by omega, fun ⟨_, hfits⟩ => by omega⟩

end Sys2Proof.Machine
end

section
/-! PROOFS. Load-accumulator (42_load.md): when Z and N describe A (R129), and the whole effect of
each form (R121 to R128). The addressing modes are first read as arithmetic on the numbers of bytes
and words; one lemma about `loadA` then gives every form its next state. -/

namespace Sys2Proof

theorem wordOf_eq_ofNat (h l : Byte) : wordOf h l = BitVec.ofNat 16 (256 * h.toNat + l.toNat) := by
  rw [← wordOf_toNat, BitVec.ofNat_toNat, BitVec.setWidth_eq]

namespace Machine

/-! ## Z and N against A (R129) -/

theorem State.flagsDescribeA_of_eq {s t : State} (ha : t.a = s.a) (hz : t.flags.z = s.flags.z)
    (hn : t.flags.n = s.flags.n) (h : s.flagsDescribeA) : t.flagsDescribeA := by
  unfold State.flagsDescribeA
  rw [ha, hz, hn]
  exact h

theorem State.loadA_flagsDescribeA (s : State) (f : Format) (p : Int) (o : Operand) :
    (s.loadA f p o).flagsDescribeA := ⟨rfl, rfl⟩

/-- Settles O11: a load writes Z and N from the value it writes to A, a call and an undefined byte
write none of the three, and reset clears Z where A is 0. -/
theorem loadsAloneSetAccumulator : Obligations.LoadsAloneSetAccumulator := by
  refine ⟨fun i s t h => ?_, fun ⟨hz, _⟩ => absurd hz (by decide)⟩
  rcases exec_next_cases h with ⟨hi, p, o, rfl⟩ | ⟨target, rfl, rfl⟩ | ⟨opcode, rfl, rfl⟩
  · rw [if_pos hi]
    exact s.loadA_flagsDescribeA i.format p o
  · exact ⟨rfl, rfl, rfl⟩
  · exact ⟨rfl, rfl, rfl⟩

theorem exec_keeps_flagsDescribeA {i : Instr} {s t : State} (hs : s.flagsDescribeA)
    (h : exec i s = .next t) : t.flagsDescribeA := by
  have hit := loadsAloneSetAccumulator.1 i s t h
  split at hit
  · exact hit
  · obtain ⟨ha, hz, hn⟩ := hit
    exact State.flagsDescribeA_of_eq ha hz hn hs

/-- Settles O37: opening the run and charging the cost touch neither A nor the flags, and the
instruction keeps the relation. -/
theorem stepKeepsFlagsDescribeA : Obligations.StepKeepsFlagsDescribeA := by
  intro s t hs h
  obtain ⟨i, rest, u, -, hx, rfl⟩ := step_eq_next.mp h
  have hopen : s.openRun.flagsDescribeA :=
    State.flagsDescribeA_of_eq s.openRun_a (by rw [State.openRun_flags])
      (by rw [State.openRun_flags]) hs
  have hu : u.flagsDescribeA := exec_keeps_flagsDescribeA hopen hx
  exact hu

/-! ## Addresses and penalties as arithmetic (R102 to R109) -/

theorem zext16_eq_ofNat {b : Byte} {n : Nat} (h : b.toNat = n) : zext16 b = BitVec.ofNat 16 n := by
  rw [← h, ← zext16_toNat, BitVec.ofNat_toNat, BitVec.setWidth_eq]

theorem eaZp_eq_ofNat (z : Byte) : eaZp z = BitVec.ofNat 16 z.toNat := zext16_eq_ofNat rfl

theorem eaZpIndexed_eq_ofNat (z idx : Byte) :
    eaZpIndexed z idx = BitVec.ofNat 16 ((z.toNat + idx.toNat) % 256) :=
  zext16_eq_ofNat (BitVec.toNat_add z idx)

theorem eaAbsIndexed_eq_ofNat (base : Word) (idx : Byte) :
    eaAbsIndexed base idx = BitVec.ofNat 16 (base.toNat + idx.toNat) := by
  apply BitVec.eq_of_toNat_eq
  rw [eaAbsIndexed, BitVec.toNat_add, zext16_toNat, BitVec.toNat_ofNat]

/-- Both bytes of a pointer are found modulo 256 (R42, D6). -/
theorem State.zpPointer_eq_pointerAt (s : State) {b : Byte} {p : Nat} (hb : b.toNat = p % 256) :
    s.zpPointer b = s.pointerAt p := by
  have hb' : (b + 1).toNat = (p + 1) % 256 := by
    rw [BitVec.toNat_add, hb]
    exact Nat.mod_add_mod p 256 1
  rw [State.zpPointer, zext16_eq_ofNat hb, zext16_eq_ofNat hb', wordOf_eq_ofNat]
  rfl

theorem State.zpPointer_eq_pointerAt_toNat (s : State) (z : Byte) :
    s.zpPointer z = s.pointerAt z.toNat :=
  s.zpPointer_eq_pointerAt (Nat.mod_eq_of_lt z.isLt).symm

theorem State.eaIndX_eq_pointerAt (s : State) (z : Byte) :
    s.eaIndX z = s.pointerAt (z.toNat + s.x.toNat) :=
  s.zpPointer_eq_pointerAt (BitVec.toNat_add z s.x)

theorem State.penalty_eq_crossing (s : State) (base : Word) (idx : Byte) :
    s.penalty base idx = s.crossing base idx := by
  rw [State.penalty, State.crossing, eaAbsIndexed_eq_ofNat]

/-! ## The eight forms (R120 to R128) -/

/-- A load from an address leaves what the rules say, the operand being read there (R120). -/
theorem State.loadA_addr_eq_afterLoad (s : State) {f : Format} {p cycles : Int} {ea addr : Word}
    (hea : ea = addr) (hcost : 1 + modeCost f + p + opCost f = cycles) :
    s.loadA f p (.addr ea) =
      s.afterLoad (Memory.read s.mem addr) (BitVec.ofNat 16 f.length) cycles := by
  rw [← hea, ← hcost]
  rfl

/-- The cycles of a form that can pay the penalty: its fixed ones and the crossing (R83, R108). -/
theorem State.cycles_penalty (s : State) (f : Format) (base : Word) (idx : Byte) :
    1 + modeCost f + s.penalty base idx + opCost f =
      1 + modeCost f + opCost f + s.crossing base idx := by
  rw [State.penalty_eq_crossing, add_right_comm]

/-- Settles O1: the literal is the operand. -/
theorem loadImmediateResult : Obligations.LoadImmediateResult :=
  ⟨fun _ _ => rfl, fun _ _ => rfl⟩

/-- Settles O2: the operand byte is the address. -/
theorem loadZeroPageResult : Obligations.LoadZeroPageResult := by
  refine ⟨fun _ _ => rfl, fun zp8 s => ?_⟩
  exact congrArg Host.Outcome.next (s.loadA_addr_eq_afterLoad (eaZp_eq_ofNat zp8) rfl)

/-- Settles O3: the sum of bytes wraps at 256. -/
theorem loadZeroPageXResult : Obligations.LoadZeroPageXResult := by
  refine ⟨fun _ _ => rfl, fun zp8 s => ?_⟩
  exact congrArg Host.Outcome.next (s.loadA_addr_eq_afterLoad (eaZpIndexed_eq_ofNat zp8 s.x) rfl)

/-- Settles O4: the operand word is the address. -/
theorem loadAbsoluteResult : Obligations.LoadAbsoluteResult := by
  refine ⟨fun l h _ => wordOf_eq_ofNat h l ▸ rfl, fun addr s => ?_⟩
  exact congrArg Host.Outcome.next (s.loadA_addr_eq_afterLoad rfl rfl)

/-- Settles O5: the sum wraps at 65536, and the penalty is that of its page cross. -/
theorem loadAbsoluteXResult : Obligations.LoadAbsoluteXResult := by
  refine ⟨fun l h _ => wordOf_eq_ofNat h l ▸ rfl, fun base s => ?_⟩
  exact congrArg Host.Outcome.next
    (s.loadA_addr_eq_afterLoad (eaAbsIndexed_eq_ofNat base s.x) (s.cycles_penalty .absx base s.x))

/-- Settles O6: as Absolute,X, the index being Y. -/
theorem loadAbsoluteYResult : Obligations.LoadAbsoluteYResult := by
  refine ⟨fun l h _ => wordOf_eq_ofNat h l ▸ rfl, fun base s => ?_⟩
  exact congrArg Host.Outcome.next
    (s.loadA_addr_eq_afterLoad (eaAbsIndexed_eq_ofNat base s.y) (s.cycles_penalty .absy base s.y))

/-- Settles O7: the pointer's own address and that of its second byte both wrap at 256. -/
theorem loadIndexedIndirectResult : Obligations.LoadIndexedIndirectResult := by
  refine ⟨fun _ _ => rfl, fun zp8 s => ?_⟩
  exact congrArg Host.Outcome.next (s.loadA_addr_eq_afterLoad (s.eaIndX_eq_pointerAt zp8) rfl)

/-- Settles O8: the pointer is the base of the sum and of its penalty. -/
theorem loadIndirectIndexedResult : Obligations.LoadIndirectIndexedResult := by
  refine ⟨fun _ _ => rfl, fun zp8 s => ?_⟩
  rw [← s.zpPointer_eq_pointerAt_toNat zp8]
  exact congrArg Host.Outcome.next
    (s.loadA_addr_eq_afterLoad (eaAbsIndexed_eq_ofNat (s.zpPointer zp8) s.y)
      (s.cycles_penalty .indy (s.zpPointer zp8) s.y))

end Machine
end Sys2Proof
end

section
/-! PROOFS. Stack addresses and the program counter (43_control.md R141, R143), and the whole effect
of Jump-to-Subroutine (R140). -/

namespace Sys2Proof.Machine

/-! ## The program counter (R143) -/

/-- Every instruction but a call moves PC past its own bytes (R62). -/
theorem exec_pc {i : Instr} {s t : State} (hi : i.format ≠ .jabs) (h : exec i s = .next t) :
    t.pc = s.pc + BitVec.ofNat 16 i.format.length := by
  rcases exec_next_cases h with ⟨-, p, o, rfl⟩ | ⟨target, rfl, -⟩ | ⟨opcode, rfl, rfl⟩
  · exact s.loadA_pc i.format p o
  · exact absurd rfl hi
  · rfl

/-- Settles O31: charging the cost keeps the PC the instruction left, and an instruction's format
says how many bytes it is encoded in. -/
theorem programCounterMoves : Obligations.ProgramCounterMoves := by
  intro s t i rest hd h
  obtain ⟨u, hx, rfl⟩ := step_of_decode hd h
  rw [State.retire_pc]
  constructor
  · rintro target rfl
    cases (exec_jsrAbs target s.openRun).symm.trans hx
    rfl
  · intro hi
    rw [exec_pc hi hx, State.openRun_pc, (encodedShape i).1, BitVec.toNat_add, BitVec.toNat_ofNat,
      Nat.add_mod_mod]

/-! ## Stack addresses (R141) -/

theorem stackAddr_toNat (sp k : Byte) :
    (stackAddr sp k).toNat = 0x0100 + (sp.toNat + k.toNat) % 256 := by
  have hbase : stackBase.toNat = 0x0100 := rfl
  rw [stackAddr, BitVec.toNat_add, zext16_toNat, BitVec.toNat_add, hbase]
  omega

theorem stackAddr_eq_ofNat {sp k : Byte} {n : Nat} (h : (sp.toNat + k.toNat) % 256 = n) :
    stackAddr sp k = BitVec.ofNat 16 (0x0100 + n) := by
  rw [← h, ← stackAddr_toNat, BitVec.ofNat_toNat, BitVec.setWidth_eq]

/-- Settles O16: the offset wraps at 256, so it never leaves page 1. -/
theorem stackAddressRule : Obligations.StackAddressRule := by
  intro sp k
  have haddr := stackAddr_toNat sp k
  exact ⟨haddr, by omega, by omega, stackAddr_zero_ne_one sp⟩

/-! ## Jump-to-Subroutine (R140) -/

/-- The three bytes of a call, its target low byte first (R63, R64). -/
theorem decode_jsr (l h : Byte) (rest : List Byte) :
    decode (0x20 :: l :: h :: rest) = .ok (.jsrAbs (wordOf h l), rest) := rfl

/-- A call's writes as arithmetic on the numbers of SP and PC (R140, R141). -/
theorem State.afterCall_mem (s : State) (target : Word) :
    (s.afterCall target).mem =
      Memory.write
        (Memory.write s.mem (BitVec.ofNat 16 (0x0100 + s.sp.toNat))
          (BitVec.ofNat 8 ((s.pc.toNat + 2) % 65536 % 256)))
        (BitVec.ofNat 16 (0x0100 + (s.sp.toNat + 1) % 256))
        (BitVec.ofNat 8 ((s.pc.toNat + 2) % 65536 / 256)) := by
  have hlow : stackAddr s.sp 0 = BitVec.ofNat 16 (0x0100 + s.sp.toNat) :=
    stackAddr_eq_ofNat (Nat.mod_eq_of_lt s.sp.isLt)
  have hhigh : stackAddr s.sp 1 = BitVec.ofNat 16 (0x0100 + (s.sp.toNat + 1) % 256) :=
    stackAddr_eq_ofNat rfl
  rw [← hlow, ← hhigh, ← returnAddress_toNat, ← loByte_eq_ofNat, ← hiByte_eq_ofNat]
  rfl

/-- At the opcode byte of a call the step goes to the two bytes after it, as they stand before the
return address is written (R140). -/
theorem step_jsr_pc {s : State} (h : Memory.read s.mem s.pc = 0x20) :
    ∃ t, step s = .next t ∧
      t.pc = wordOf (Memory.read s.mem (s.pc + 2)) (Memory.read s.mem (s.pc + 1)) := by
  have hd : decode s.fetchWindow =
      .ok (.jsrAbs (wordOf (Memory.read s.mem (s.pc + 2)) (Memory.read s.mem (s.pc + 1))), []) := by
    rw [← decode_jsr, ← h]
    rfl
  obtain ⟨t, ht⟩ := step_goesOn s
  exact ⟨t, ht, (programCounterMoves s t _ _ hd ht).1 _ rfl⟩

/-- Settles O14: the encoding, the state after a call with its writes as arithmetic, and the target
of a step, which was decoded before that state was reached. -/
theorem jumpToSubroutineResult : Obligations.JumpToSubroutineResult := by
  refine ⟨fun l h rest => ?_, fun target s => ?_, fun s hop => ?_⟩
  · rw [decode_jsr, wordOf_eq_ofNat]
  · rw [exec_jsrAbs, ← s.afterCall_mem target]
    rfl
  · obtain ⟨t, ht, hpc⟩ := step_jsr_pc hop
    exact ⟨t, ht, by rw [hpc, wordOf_toNat]⟩

end Sys2Proof.Machine
end

section
/-! PROOFS. No exception, trap or stop (60_exceptions.md R150), the single step (R163) and the size
of the address space (R153). -/

namespace Sys2Proof.Machine

/-- Settles O28: any three bytes at PC decode, and every instruction goes on. -/
theorem stepNeverStops : Obligations.StepNeverStops := step_goesOn

/-! ## A step of an idle core (R163) -/

/-- No instruction reads the cycles spent by the one before it: each sets `cost` afresh (R82). -/
theorem exec_withCost (i : Instr) (s : State) (c : Int) : exec i { s with cost := c } = exec i s := by
  cases i <;> rfl

/-- A step of an idle core is the first step of the loop of `Run(1)`. -/
theorem step_startOfRun_one {s t : State} (hidle : s.remaining ≤ 0) (h : step s = .next t) :
    step { s with remaining := 1, cost := 0 } = .next t := by
  obtain ⟨i, rest, u, hd, hx, rfl⟩ := step_eq_next.mp h
  rw [State.openRun_of_idle hidle.not_gt] at hx
  have hstart : exec i { s with remaining := 1, cost := 0 } = .next u :=
    (exec_withCost i { s with remaining := 1 } 0).trans hx
  exact step_eq_next.mpr ⟨i, rest, u, hd, hstart, rfl⟩

/-- Settles O45: a budget of 1 is spent by one step, and what it leaves is 1 less the cost. -/
theorem idleStepIsRunOfOne : Obligations.IdleStepIsRunOfOne := by
  intro s t hidle h
  have hloop : runLoop (1 : Int).toNat { s with remaining := 1, cost := 0 } = .next t :=
    runLoop_of_running Int.one_pos (step_startOfRun_one hidle h) 0
  have hspent : 1 - t.remaining = t.cost := by
    rw [(step_budget h).1, State.openRun_of_idle hidle.not_gt]
    exact sub_sub_cancel 1 t.cost
  rw [run_of_runLoop hloop, hspent]
  rfl

/-! ## The size of the address space (R153) -/

/-- An array as long as the address space is read back byte by byte. -/
theorem Memory.read_ofBytes_zero {bytes : List Byte} (h : bytes.length = 65536) (a : Word) :
    bytes[a.toNat]? = some (Memory.read (Memory.ofBytes 0 bytes) a) := by
  have ha : a.toNat < bytes.length := h ▸ a.isLt
  rw [Memory.read, Memory.lookup_ofBytes, if_pos a.toNat.zero_le, Nat.sub_zero,
    List.getElem?_eq_getElem ha, Option.getD_some]

/-- Settles O53: the check on the size comes first, and the processor reset after it leaves the
bytes as they are. -/
theorem constructNeedsWholeAddressSpace : Obligations.ConstructNeedsWholeAddressSpace := by
  intro c bytes
  split
  case isTrue h =>
    have hwf : Memory.wf (Memory.ofBytes 0 bytes) := Memory.wf_ofBytes (by omega)
    exact ⟨_, if_pos h, hwf, rfl, Memory.read_ofBytes_zero h⟩
  case isFalse h => exact if_neg h

end Sys2Proof.Machine
end

section
/-! PROOFS. The cycles of every instruction (70_reset_and_hazards.md R182), and two runs in a row as
one (R176). -/

namespace Sys2Proof.Machine

/-- Settles O26: the cycles of the form, and the crossing where it sums an index. -/
theorem cycleCosts : Obligations.CycleCosts := by
  intro i s
  cases i with
  | ldaImm | ldaZp | ldaZpX | ldaAbs | ldaIndX | jsrAbs | unknown => exact ⟨_, rfl, rfl⟩
  | ldaAbsX base => exact ⟨_, rfl, s.cycles_penalty .absx base s.x⟩
  | ldaAbsY base => exact ⟨_, rfl, s.cycles_penalty .absy base s.y⟩
  | ldaIndY zp8 =>
    dsimp only
    rw [← s.zpPointer_eq_pointerAt_toNat zp8]
    exact ⟨_, rfl, s.cycles_penalty .indy (s.zpPointer zp8) s.y⟩

/-! ## A larger budget (R81, R90) -/

/-- The state with `d` more cycles in the budget of its run. -/
def State.extendRun (s : State) (d : Int) : State := { s with remaining := s.remaining + d }

theorem State.extendRun_running (s : State) {d : Int} (hd : 0 ≤ d) (hs : 0 < s.remaining) :
    0 < (s.extendRun d).remaining :=
  Int.add_pos_of_pos_of_nonneg hs hd

theorem State.extendRun_of_eq (s : State) {m d : Int} (h : s.remaining + d = m) :
    s.extendRun d = { s with remaining := m } := by
  rw [State.extendRun, h]

/-- No instruction reads or writes the budget (R83). -/
theorem exec_extendRun {i : Instr} {s t : State} (d : Int) (h : exec i s = .next t) :
    exec i (s.extendRun d) = .next (t.extendRun d) := by
  have hcomm : exec i (s.extendRun d) = mapNext (State.extendRun · d) (exec i s) := by
    cases i <;> rfl
  rw [hcomm, h, mapNext_next]

/-- The step of a run in progress is charged to the larger budget alike. -/
theorem step_extendRun {s t : State} {d : Int} (hd : 0 ≤ d) (hs : 0 < s.remaining)
    (h : step s = .next t) : step (s.extendRun d) = .next (t.extendRun d) := by
  obtain ⟨i, rest, u, hdec, hx, rfl⟩ := step_eq_next.mp h
  rw [State.openRun_of_running hs] at hx
  refine step_eq_next.mpr ⟨i, rest, u.extendRun d, hdec, ?_, ?_⟩
  · rw [State.openRun_of_running (s.extendRun_running hd hs), exec_extendRun d hx]
  · exact u.retire.extendRun_of_eq (sub_add_eq_add_sub _ _ _)

/-! ## The steps of a loop inside another -/

theorem RunsFor.head {m : Nat} {s u : State} (h : RunsFor (m + 1) s u) :
    ∃ t, 0 < s.remaining ∧ step s = .next t ∧ RunsFor m t u := by
  obtain ⟨t, ht⟩ := step_goesOn s
  obtain ⟨v, hv, hs⟩ := h.running 0 m.succ_pos
  cases hv
  refine ⟨t, hs, ht, (steps_of_step ht m).symm.trans h.reaches, fun j hj => ?_⟩
  rw [← steps_of_step ht j]
  exact h.running (j + 1) (Nat.succ_lt_succ hj)

/-- A loop takes first the steps that a loop with `d` cycles less would take. -/
theorem RunsFor.runLoop_extendRun {m : Nat} {s u : State} {d : Int} (hd : 0 ≤ d)
    (h : RunsFor m s u) (fuel : Nat) :
    runLoop (m + fuel) (s.extendRun d) = runLoop fuel (u.extendRun d) := by
  induction m generalizing s with
  | zero =>
    cases h.reaches
    rw [Nat.zero_add]
  | succ m ih =>
    obtain ⟨t, hs, ht, hrest⟩ := h.head
    rw [Nat.succ_add, runLoop_of_running (s.extendRun_running hd hs) (step_extendRun hd hs ht),
      ih hrest]

/-- The loop does not read the cost that its first step overwrites (R82). -/
theorem runLoop_withCost {s : State} (hs : 0 < s.remaining) (c : Int) (fuel : Nat) :
    runLoop (fuel + 1) { s with cost := c } = runLoop (fuel + 1) s := by
  obtain ⟨t, ht⟩ := step_goesOn s
  obtain ⟨i, rest, u, hdec, hx, rfl⟩ := step_eq_next.mp ht
  rw [State.openRun_of_running hs] at hx
  have hc : step { s with cost := c } = .next u.retire := by
    refine step_eq_next.mpr ⟨i, rest, u, hdec, ?_, rfl⟩
    rw [State.openRun_of_running (s := { s with cost := c }) hs, exec_withCost, hx]
  rw [runLoop_of_running hs ht, runLoop_of_running (s := { s with cost := c }) hs hc]

/-! ## Two runs in a row (R176) -/

theorem RunsFor.runLoop_eq {m : Nat} {s u : State} (h : RunsFor m s u) (fuel : Nat) :
    runLoop (m + fuel) s = runLoop fuel u := by
  have hloop := h.runLoop_extendRun le_rfl fuel
  rwa [s.extendRun_of_eq (add_zero _), u.extendRun_of_eq (add_zero _)] at hloop

/-- A loop that has spent its budget and then a loop of budget `m` are one loop: what the first
overspent is made up by the larger budget. -/
theorem RunsFor.runLoop_compose {i₁ i₂ : Nat} {m : Int} {s u₁ u₂ : State} (h₁ : RunsFor i₁ s u₁)
    (hspent₁ : u₁.remaining ≤ 0) (hm : 0 < m) (hi₂ : 0 < i₂)
    (h₂ : RunsFor i₂ { u₁ with remaining := m, cost := 0 } u₂) (hspent₂ : u₂.remaining ≤ 0)
    (fuel : Nat) :
    runLoop (i₁ + (i₂ + fuel)) (s.extendRun (m - u₁.remaining)) = .next u₂ := by
  obtain ⟨i, rfl⟩ := Nat.exists_eq_add_one.mpr hi₂
  calc runLoop (i₁ + (i + 1 + fuel)) (s.extendRun (m - u₁.remaining))
    _ = runLoop (i + 1 + fuel) (u₁.extendRun (m - u₁.remaining)) :=
      h₁.runLoop_extendRun (by omega) _
    _ = runLoop (i + fuel + 1) { u₁ with remaining := m } := by
      rw [u₁.extendRun_of_eq (add_sub_cancel _ _), Nat.add_right_comm]
    _ = runLoop (i + fuel + 1) { u₁ with remaining := m, cost := 0 } :=
      (runLoop_withCost (s := { u₁ with remaining := m }) hm 0 _).symm
    _ = runLoop fuel u₂ := by rw [Nat.add_right_comm, h₂.runLoop_eq]
    _ = .next u₂ := runLoop_of_spent hspent₂ fuel

/-- Settles O44: the larger budget covers the steps of both loops and what the first overspent. -/
theorem runsCompose : Obligations.RunsCompose := by
  intro n m k j s t u hn hm hfirst hsecond
  obtain ⟨i₁, u₁, -, hi₁, hruns₁, hloop₁, hspent₁, -⟩ := run_spends_budget hn s
  cases (run_of_runLoop hloop₁).symm.trans hfirst
  obtain ⟨i₂, u₂, hpos₂, hi₂, hruns₂, hloop₂, hspent₂, -⟩ := run_spends_budget hm u₁.closeRun
  cases (run_of_runLoop hloop₂).symm.trans hsecond
  have hbudget : n + (m - u₁.remaining) = n - u₁.remaining + m := by omega
  obtain ⟨fuel, hfuel⟩ : ∃ fuel, (n - u₁.remaining + m).toNat = i₁ + (i₂ + fuel) :=
    ⟨(n - u₁.remaining + m).toNat - (i₁ + i₂), by omega⟩
  have hloop : runLoop (n - u₁.remaining + m).toNat
      { s with remaining := n - u₁.remaining + m, cost := 0 } = .next u₂ := by
    rw [hfuel, ← hbudget]
    exact hruns₁.runLoop_compose hspent₁ hm hpos₂ hruns₂ hspent₂ fuel
  rw [run_of_runLoop hloop, add_sub_assoc]

end Sys2Proof.Machine
end

section
/-! PROOFS. The host port between runs (70_reset_and_hazards.md R170 to R179): what the resets, the
writes, the reads and the run answer. -/

namespace Sys2Proof.Machine

/-! ## Between runs, and the addresses of the host (R152, R175) -/

theorem hostAct_of_idle {s : State} (h : s.remaining ≤ 0) (q : HostRequest) :
    hostAct q s = hostBetweenRuns q s :=
  if_neg h.not_gt

theorem addressOf_of_inside {address : Int} (h : 0 ≤ address ∧ address ≤ 65535) :
    addressOf address = some (BitVec.ofNat 16 address.toNat) :=
  if_pos h

theorem addressOf_of_outside {address : Int} (h : ¬ (0 ≤ address ∧ address ≤ 65535)) :
    addressOf address = none :=
  if_neg h

theorem addressOf_toNat (a : Word) : addressOf a.toNat = some a := by
  rw [addressOf_of_inside (by omega), Int.toNat_natCast, BitVec.ofNat_toNat, BitVec.setWidth_eq]

theorem eq_ofNat_address_iff {address : Int} (h : 0 ≤ address ∧ address ≤ 65535) (a : Word) :
    a = BitVec.ofNat 16 address.toNat ↔ (a.toNat : Int) = address := by
  rw [← BitVec.toNat_inj, BitVec.toNat_ofNat]
  omega

theorem hostBetweenRuns_writeByte {address : Int} {a : Word} (h : addressOf address = some a)
    (v : Byte) (s : State) :
    hostBetweenRuns (.writeByte address v) s = .next (s.write a v, .done) := by
  rw [hostBetweenRuns, h]

theorem hostBetweenRuns_readByte {address : Int} {a : Word} (h : addressOf address = some a)
    (s : State) :
    hostBetweenRuns (.readByte address) s = .next (s, .byte (Memory.read s.mem a)) := by
  rw [hostBetweenRuns, h, ← Memory.read_of_state]

/-! ## The run (R175) -/

/-- A run answers, whatever its budget (R81, R87). -/
theorem run_answers (n : Int) (s : State) : ∃ t k, run n s = .next (t, k) := by
  by_cases hn : 0 < n
  · obtain ⟨u, k, -, hrun, -⟩ := runReturnsWithinFive n s hn
    exact ⟨_, k, hrun⟩
  · exact ⟨_, 0, budgetTestedBeforeFetch.2.2 n s (not_lt.mp hn)⟩

/-- Settles O55: the port hands on what the run answers. -/
theorem hostRunAnswersCycles : Obligations.HostRunAnswersCycles := by
  intro n s hidle
  obtain ⟨t, k, hrun⟩ := run_answers n s
  refine ⟨t, k, hrun, ?_⟩
  rw [hostAct_of_idle hidle, hostBetweenRuns, hrun, mapNext_next]

/-! ## The resets (R170 to R172) -/

/-- Settles O46: the two parameters are read from the state's own `config`. -/
theorem processorResetResult : Obligations.ProcessorResetResult :=
  fun _ hidle => hostAct_of_idle hidle .processorReset

/-- Settles O47: the empty memory reads 0x00 everywhere. -/
theorem memoryResetResult : Obligations.MemoryResetResult :=
  fun _ hidle => ⟨[], hostAct_of_idle hidle .memoryReset, Memory.read_empty⟩

/-- With this hardware's parameters a full reset writes every field but the run-internal ones. -/
theorem State.fullReset_thisHardware {s : State} (h : s.config = Config.thisHardware) :
    s.fullReset = { State.reset with remaining := s.remaining, cost := s.cost } := by
  simp only [State.fullReset, State.memoryReset, State.processorReset, h]
  rfl

/-- The state after Reset steps by UnknownOpcode: memory is all 0x00, an undefined byte (R172). -/
theorem step_reset : step State.reset =
    .next { State.reset with pc := 0xFFFD, log := [.unknownOpcode 0x00 0xFFFC], cost := 1 } :=
  rfl

/-- Settles O48: the registers are those of `State.reset`, and the run is that one step. -/
theorem resetResult : Obligations.ResetResult := by
  refine ⟨rfl, rfl, rfl, rfl, rfl, rfl, Memory.read_empty, rfl, fun s hidle hconfig => ?_, ?_⟩
  · rw [hostAct_of_idle hidle, hostBetweenRuns, State.fullReset_thisHardware hconfig]
  · exact ⟨_, idleStepIsRunOfOne _ _ le_rfl step_reset, rfl, rfl⟩

/-! ## The writes (R177, R178) -/

/-- Settles O49: an address in range is a word, and a write there changes what is read there. -/
theorem hostWritesOneByte : Obligations.HostWritesOneByte := by
  intro s address v hidle
  rw [hostAct_of_idle hidle]
  split
  case isTrue h =>
    refine ⟨_, hostBetweenRuns_writeByte (addressOf_of_inside h) v s, fun a => ?_⟩
    rw [Memory.read_write]
    exact if_congr (eq_ofNat_address_iff h a) rfl rfl
  case isFalse h =>
    rw [hostBetweenRuns, addressOf_of_outside h]

theorem Flags.get_set (g : Flags) (f f' : FlagName) (v : Bool) :
    (g.set f v).get f' = if f' = f then v else g.get f' := by
  cases f <;> cases f' <;> rfl

/-- Settles O50: each write is an update of the one field, and a flag's keeps the other flags. -/
theorem hostWritesOneRegister : Obligations.HostWritesOneRegister := by
  intro s hidle
  have hact := hostAct_of_idle hidle
  exact ⟨fun v => hact (.writeReg .a v), fun v => hact (.writeReg .x v),
    fun v => hact (.writeReg .y v), fun v => hact (.writeReg .sp v), fun v => hact (.writePc v),
    fun f v => ⟨_, hact (.writeFlag f v), fun f' => s.flags.get_set f f' v⟩⟩

/-! ## The reads (R179) -/

/-- Settles O51: each read answers its own field, and a byte is read at the word its address is. -/
theorem hostReadsChangeNothing : Obligations.HostReadsChangeNothing := by
  intro s hidle
  have hact := hostAct_of_idle hidle
  refine ⟨hact (.readReg .a), hact (.readReg .x), hact (.readReg .y), hact (.readReg .sp),
    hact .readPc, hact (.readFlag .c), hact (.readFlag .z), hact (.readFlag .i),
    hact (.readFlag .d), hact (.readFlag .b), hact (.readFlag .v), hact (.readFlag .n),
    hact .readLog, fun a => ?_, fun address h => ?_⟩
  · rw [hact, hostBetweenRuns_readByte (addressOf_toNat a)]
  · rw [hact, hostBetweenRuns, addressOf_of_outside h]

end Sys2Proof.Machine
end
